-- ==== Sys2Proof/Word.lean ====
section
/-! DEFINITION. The values a wire carries, the word width, and the names the spec gives components and ports. -/

namespace Sys2Proof

/-- What a wire carries (00_scope.md R6): a bit, 0 or 1, or one of the four kinds of level the rule lists that are not a bit.
The model gives the four kinds one and the same treatment (log 7). -/
inductive Level where
  | zero
  | one
  | undriven
  | floating
  | unknown
  | intermediate
deriving DecidableEq, Repr, Inhabited

/-- A bit as a level. -/
def Level.ofBit (b : Bool) : Level := if b then .one else .zero

/-- Is the level a bit (R6)? -/
def Level.isBit : Level → Bool
  | .zero => true
  | .one => true
  | .undriven => false
  | .floating => false
  | .unknown => false
  | .intermediate => false

/-- Is the level the bit 1? Read only where `isBit` holds. -/
def Level.isOne (l : Level) : Bool := l == .one

/-- The word width W of `ripple_carry_adder_32bit` (R4): a named constant; the chain itself is defined for every width. -/
abbrev wordWidth : Nat := 32

/-- A settled bus of the adder: W bits, bit 0 the least significant (R7). -/
abbrev Word := BitVec wordWidth

/-- The three kinds of component (R1, R30). -/
inductive Component where
  | halfAdder
  | fullAdder
  | rippleCarryAdder32
deriving DecidableEq, Repr, Inhabited

/-- The input ports (R16 to R18). -/
inductive Port where
  | a
  | b
  | carryIn
deriving DecidableEq, Repr

/-- One input wire: a port of one bit, or one bit of a bus port (written `a` or `a[7]` in the spec, R35, F1, F3). -/
inductive Wire where
  | scalar (p : Port)
  | bus (p : Port) (i : Nat)
deriving DecidableEq, Repr

end Sys2Proof
end

