-- ==== Sys2Proof/Config.lean ====
section
/-! DEFINITION. The open parameters of the spec and the free values. None has a body: no proof can see a value of one. -/

namespace Sys2Proof.Config

/-- `T_settle_HA` (70_reset_and_hazards.md R65, OPEN; at least 0, in the unit of `State.now`, log 3). -/
opaque tSettleHA : Nat

/-- `T_settle_FA` (R65, OPEN). -/
opaque tSettleFA : Nat

/-- The time a change at `a[0]` takes to reach `sum[W-1]` along the carry chain of a W-bit adder (R68; no number in the spec). -/
opaque chainDelay (w : Nat) : Nat

/-- What `T_settle_ADD(W)` exceeds that time by (log 4). -/
opaque chainSlack (w : Nat) : Nat

/-- `T_settle_ADD(W)` (R65, OPEN): at least the chain's own delay (R68). -/
def tSettleADD (w : Nat) : Nat := chainDelay w + chainSlack w

/-- The settle time of a component: a separate one per kind, and per W for the adder (R65). -/
def tSettle : Component → Nat
  | .halfAdder => tSettleHA
  | .fullAdder => tSettleFA
  | .rippleCarryAdder32 => tSettleADD wordWidth

/-- The k-th free draw: what one output bit shows when it is sampled before it has settled or at power-up (R63, R65, R66,
93_implementation_defined.md U2 to U4). Under no law: it need not even be a bit (log 6). -/
opaque freeLevel (k : Nat) : Level

end Sys2Proof.Config
end

