-- ==== Sys2Proof/Syntax.lean ====
section
/-! DEFINITION. The operations: one constructor per row of spec/opcode_table.json. -/

namespace Sys2Proof

/-- An evaluation's component and its complete input vector (30_encoding.md R30, R32 to R34). Which component is driven selects
the operation; there are no opcode bits. A bus is the list of its wires, bit 0 first. -/
inductive Instr where
  /-- HA: `half_adder` with `a`, `b` (R32). -/
  | ha (a b : Level)
  /-- FA: `full_adder` with `a`, `b`, `carryIn` (R33). -/
  | fa (a b carryIn : Level)
  /-- ADD32: `ripple_carry_adder_32bit` with `a[31:0]`, `b[31:0]` (R34). -/
  | add32 (a b : List Level)
deriving DecidableEq, Repr

end Sys2Proof
end

