-- ==== Sys2Proof/WellFormed.lean ====
section
/-! DEFINITION. Which terms of `Instr` are input vectors of their format. -/

namespace Sys2Proof

/-- Has the bus W wires (R18, R34)? The ports of one bit hold one wire by their type. -/
def busWellFormed (x : List Level) : Bool := x.length == wordWidth

/-- Is every port of the operation as wide as R16 to R18 say? Whether its wires carry bits is no part of it: a vector with a
wire that is not a bit is a vector, and evaluating it faults (R35). -/
def Instr.wellFormed : Instr → Bool
  | .ha _ _ => true
  | .fa _ _ _ => true
  | .add32 a b => busWellFormed a && busWellFormed b

end Sys2Proof
end

