-- ==== Sys2Proof/Decode.lean ====
section
/-! DEFINITION. From a component and its input vector to the operation, and back. A vector is the list of its wires, bit 0 first. -/

namespace Sys2Proof

/-- Why a vector is no input of a component. Closed: R36 makes every vector of the right width legal. -/
inductive DecodeError where
  /-- The vector has not the width of the component's format (R32 to R34, R36). -/
  | wrongWidth (c : Component) (expected got : Nat)
deriving DecidableEq, Repr

/-- The number of input wires of a component: 2, 3 and 2W (R27, R32 to R34). -/
def inputWidth : Component → Nat
  | .halfAdder => 2
  | .fullAdder => 3
  | .rippleCarryAdder32 => 2 * wordWidth

/-- The component an operation evaluates (R30). -/
def Instr.component : Instr → Component
  | .ha _ _ => .halfAdder
  | .fa _ _ _ => .fullAdder
  | .add32 _ _ => .rippleCarryAdder32

/-- Read the input vector of the component the host drives: format HA `{a, b}` (R32), format FA `{a, b, carryIn}` (R33),
format ADD32 `{a[31:0], b[31:0]}` (R34). -/
def decode : Component → List Level → Except DecodeError Instr
  | .halfAdder, [b, a] => .ok (.ha a b)
  | .fullAdder, [k, b, a] => .ok (.fa a b k)
  | .rippleCarryAdder32, v =>
    if v.length = 2 * wordWidth then .ok (.add32 (v.drop wordWidth) (v.take wordWidth))
    else .error (.wrongWidth .rippleCarryAdder32 (2 * wordWidth) v.length)
  | .halfAdder, v => .error (.wrongWidth .halfAdder 2 v.length)
  | .fullAdder, v => .error (.wrongWidth .fullAdder 3 v.length)

/-- The input vector of an operation (R32 to R34): the encoding of a stimulus line (95_test_vectors.md section 3). -/
def encode : Instr → List Level
  | .ha a b => [b, a]
  | .fa a b k => [k, b, a]
  | .add32 a b => b ++ a

/-- The low n bits of a number as a vector of bits, bit 0 first (R7). -/
def vectorOfNat (n w : Nat) : List Level := (List.range n).map fun i => Level.ofBit (w.testBit i)

/-- Read a number of n bits as the component's input vector; none where the number has more bits. -/
def decodeBits (c : Component) (n w : Nat) : Option Instr :=
  if w < 2 ^ n then (decode c (vectorOfNat n w)).toOption else none

/-- The operation whose input vector is the number `w` of `nbits` bits. The width tells the components apart, since the formats
have no opcode bits (R30): 2, 3 and 64. HA and FA in one whole byte can not be told apart: a byte whose bits fit format HA is
read as HA, one that needs bit 2 as FA; the two readings of a byte below 4 give the same output vector (R43; log 10). -/
def decodeTableWord (nbits w : Nat) : Option Instr :=
  if nbits = 2 then decodeBits .halfAdder 2 w
  else if nbits = 3 then decodeBits .fullAdder 3 w
  else if nbits = 8 then
    if w < 4 then decodeBits .halfAdder 2 w else decodeBits .fullAdder 3 w
  else if nbits = 64 then decodeBits .rippleCarryAdder32 64 w
  else none

end Sys2Proof
end

