-- ==== Sys2Proof/Machine/State.lean ====
section
/-! DEFINITION. The state. The block has none (10_state.md R12 to R15, 20_memory.md R24): what stands here is the host's side of
its interface, the wiring, the levels driven, the time and what was sampled (R21 to R23, R37, R63 to R66; log 2). -/

namespace Sys2Proof.Machine

/-- The name of a binding of a stimulus program, and so of the component instantiated for it (R37; log 11). -/
abbrev Name := String

/-- An operand of a stimulus line (R37). -/
inductive Operand where
  /-- Wires the host drives itself, bit 0 first: a bit literal is one wire, a bus literal `0x…` is W wires. Levels that are
  not bits may stand here too, so that R35 can be met (log 14). -/
  | lit (levels : List Level)
  /-- `n.sum`. -/
  | sum (n : Name)
  /-- `n.carry`. -/
  | carry (n : Name)
  /-- `n.sum[i]`. -/
  | sumBit (n : Name) (i : Nat)
  /-- `NOT(x)`: a host inverter on each wire, outside the block (R8, R37). -/
  | inv (x : Operand)
  /-- `{x, y}`: concatenation, `x` the more significant (R7). -/
  | cat (x y : Operand)
deriving DecidableEq, Repr

/-- The component of a line with an operand for each of its input ports (R37). -/
inductive Call where
  | ha (a b : Operand)
  | fa (a b carryIn : Operand)
  | add32 (a b : Operand)
deriving DecidableEq, Repr

/-- One line of a stimulus program: `<name> = <op> <operands>` (R37). -/
structure Line where
  name : Name
  call : Call
deriving DecidableEq, Repr

/-- What the host can do to the block (R22). -/
inductive Action where
  /-- Evaluate one component as a stimulus line says (R21, R37). -/
  | stimulus (l : Line)
  /-- Drive the inputs of the component named `n` with a complete input vector, at any time (R22, R66; log 15). -/
  | drive (n : Name) (c : Component) (vector : List Level)
  /-- Change one input port of the component named n, at any time: from now on the operand `x` drives it, host levels or wires, and
  the other ports stay connected as they are (R22, R66; log 26). -/
  | change (n : Name) (p : Port) (x : Operand)
  /-- Change nothing for a time `t` (R64, R65). -/
  | hold (t : Nat)
  /-- Sample the outputs of the component named `n`, settled or not (R22, R65). -/
  | sample (n : Name)
  /-- Power up a component whose inputs nothing drives yet (R63). -/
  | powerUp (n : Name) (c : Component)
deriving DecidableEq, Repr

/-- What drives the input ports of an instantiated component: nothing since power-up (R63), or the operands of a call. -/
inductive Source where
  | powerUp (c : Component)
  | driven (call : Call)
deriving DecidableEq, Repr

/-- A component the host has instantiated (R23). It holds no value of the block's: its outputs are a function of its inputs (R20). -/
structure Instance where
  name : Name
  source : Source
  /-- when what drives its inputs last changed, on the clock of `State.now` (R65) -/
  changedAt : Nat
  /-- has it ever settled since power-up, before what drives any input was last changed (R63)? -/
  settledOnce : Bool
deriving DecidableEq, Repr

/-- An output vector as the host samples it (R16 to R18, R32 to R34); a bus is the list of its wires, bit 0 first. -/
inductive Outputs where
  | halfAdder (sum carry : Level)
  | fullAdder (sum carry : Level)
  | adder (sum : List Level)
deriving DecidableEq, Repr

/-- The one outcome of an evaluation (R21): the output vector, or the wires that are not bits (R35). -/
inductive EvalResult where
  | outputs (o : Outputs)
  | nonBits (ws : List Wire)
deriving DecidableEq, Repr

/-- The view of an instantiated component once all that settles has settled. It is computed when it is looked at and stored nowhere (R12, R20). -/
structure Node where
  /-- what its rule gives for its inputs -/
  result : EvalResult
  /-- does everything it is wired to settle? -/
  steady : Bool
  /-- the time from which its inputs have been steady for its settle time, if they are (R65) -/
  readyAt : Nat
  /-- the levels on its output wires: what it settles to, or free draws where it does not settle (R63) -/
  outputs : Outputs
deriving DecidableEq, Repr

/-- The two outputs of a half or full adder, written (sum, carry) in that order (R11). -/
structure SumCarry where
  sum : Bool
  carry : Bool
deriving DecidableEq, Repr

/-- The closed set of fault reasons (60_exceptions.md R54). -/
inductive Fault where
  /-- Raised by an evaluation, of any component, some input wire of which is not a bit; it lists every such wire, ports in the
  order `a`, `b`, `carryIn` and bits upwards (R35, R54, R57; log 8). Safe: the hardware raises nothing and settles to something
  the spec gives no value for; the model gives no output, marks the evaluation and lets the other components go on (R23, R55; log 18). -/
  | nonBinaryInput (wires : List Wire)
deriving DecidableEq, Repr

/-- The host's side of the interface. -/
structure State where
  /-- what the host has still to do, oldest first (R21, R37) -/
  actions : List Action
  /-- the components instantiated, newest first; each is wired to older ones only (R23, R67) -/
  bench : List Instance
  /-- the time, in the unit of `Config.tSettle` (R65; log 3) -/
  now : Nat
  /-- what the host got back at its last sample (R21 (4), R22); nothing where the evaluation faulted (R55) -/
  sampled : Option Outputs
  /-- the fault marks: every fault raised so far with the name of the component evaluated, newest first (R55; log 18) -/
  faults : List (Name × Fault)
  /-- free draws used so far (R65 "a fresh draw"; the model's own, log 6) -/
  draws : Nat
deriving DecidableEq, Repr

/-- Why the model gives no meaning to what the host asks. -/
inductive Refusal where
  /-- An operation without a meaning in this model. Raised by nobody: every operation has its meaning. Safe. -/
  | notModelled (mnemonic : String)
  /-- Raised by a stimulus line or a changed input whose operand refers to a name that no line binds (R37 "A reference to a later
  or an unknown binding is refused"). Safe. -/
  | unknownBinding (n : Name)
  /-- Raised by a stimulus line or a changed input whose operand refers to its own binding or to a later one (R37). Every wiring
  with a loop has such a reference, so this is also the refusal of a loop (R67). Safe. -/
  | laterBinding (n : Name)
  /-- Raised by a change of an input port that the component does not have (R16, R18). Safe. -/
  | noSuchInput (n : Name) (p : Port)
  /-- Raised by an operand that reads the `carry` of a ripple adder, which has no such port (R18, R46). Safe. -/
  | noSuchPort (n : Name)
  /-- Raised by an operand that reads a bit of `sum` beyond the port's width (R16 to R18). Safe. -/
  | noSuchBit (n : Name) (i : Nat)
  /-- Raised by a stimulus line or a changed input whose operand has not the width of the port (R16 to R18, R36). Safe. -/
  | operandWidth (p : Port) (expected got : Nat)
  /-- Raised by an action that drives a vector which is no input of the component (R32 to R34, R36). Safe. -/
  | undecodable (e : DecodeError)
  /-- Raised by a sample or a change of a name that nothing is instantiated for. Safe. -/
  | noSuchInstance (n : Name)
deriving DecidableEq, Repr

/-- Nothing is instantiated, driven or sampled. The block has no reset state (R62): each field is the model's choice (log 2). -/
def State.reset : State where
  actions := []
  bench := []
  now := 0
  sampled := none
  faults := []
  draws := 0

end Sys2Proof.Machine
end

