-- ==== Sys2Proof/Machine/Operands.lean ====
section
/-! DEFINITION. Buses and how they are read, the input wires of an operation, the operand forms of a stimulus line. -/

namespace Sys2Proof.Machine

/-! ### Buses (R7, R9, R10) -/

/-- The bus of width w whose bit i is `f i`. -/
def bitsOf (f : Nat → Bool) : (w : Nat) → BitVec w
  | 0 => 0#0
  | w + 1 => BitVec.cons (f w) (bitsOf f w)

/-- The unsigned value: the sum over the bits of `x[i] * 2^i` (R9). -/
def uval {w : Nat} (x : BitVec w) : Nat := ((List.range w).map fun i => (x.getLsbD i).toNat * 2 ^ i).sum

/-- The signed value: the two's-complement reading `uval x - x[W-1] * 2^W` (R9). -/
def sval {w : Nat} (x : BitVec w) : Int := (uval x : Int) - (x.getLsbD (w - 1)).toNat * 2 ^ w

/-- `enc_W(n)`: the W-bit bus whose unsigned value is `n mod 2^W` (R9). -/
def enc (w : Nat) (n : Int) : BitVec w := BitVec.ofInt w n

/-- The sub-bus `x[hi:lo]` (R7). -/
def subBus {w : Nat} (x : BitVec w) (hi lo : Nat) : BitVec (hi - lo + 1) := x.extractLsb hi lo

/-- The rendering of a bus as text: W characters, most significant bit first (R10). -/
def render {w : Nat} (x : BitVec w) : List Char :=
  (List.range w).map fun k => if x.getLsbD (w - 1 - k) then '1' else '0'

/-- A text read as an unsigned binary numeral (R10). -/
def numeral (text : List Char) : Nat := text.foldl (fun n c => 2 * n + if c = '1' then 1 else 0) 0

/-- The source's `toBitString` (R10). -/
def toBitString (w : Nat) (n : Int) : List Char := render (enc w n)

/-- The wires of a settled bus, bit 0 first. -/
def busOf {w : Nat} (x : BitVec w) : List Level := (List.range w).map fun i => Level.ofBit (x.getLsbD i)

/-- Wire i of a bus port. A wire that the list does not give is connected to nothing (log 9). -/
def busWire (x : List Level) (i : Nat) : Level := x.getD i .undriven

/-- A vector of bits read as an unsigned number, bit 0 first (R7, R9). -/
def levelsValue : List Level → Nat
  | [] => 0
  | l :: rest => (if l.isOne then 1 else 0) + 2 * levelsValue rest

/-- A bus port of the adder read as bits: stage i takes wire i and nothing else (R31). Read only where every wire is a bit. -/
def busBits (x : List Level) : Word := bitsOf (fun i => (busWire x i).isOne) wordWidth

/-! ### The input wires of an operation (R16 to R18, R35) -/

/-- The W wires of a bus port with the levels on them. -/
def busWires (p : Port) (x : List Level) : List (Wire × Level) :=
  (List.range wordWidth).map fun i => (.bus p i, busWire x i)

/-- The input wires of the component with the levels on them: ports in the order `a`, `b`, `carryIn`, bits upwards. -/
def inputWires : Instr → List (Wire × Level)
  | .ha a b => [(.scalar .a, a), (.scalar .b, b)]
  | .fa a b k => [(.scalar .a, a), (.scalar .b, b), (.scalar .carryIn, k)]
  | .add32 a b => busWires .a a ++ busWires .b b

/-- The input wires that carry no bit: the list `ports` of `NonBinaryInput(ports)` (R35, R57; log 8). -/
def nonBitWires (i : Instr) : List Wire := ((inputWires i).filter fun w => !w.2.isBit).map (·.1)

/-- Does every input wire carry a bit? Then the vector is legal (R36). -/
abbrev AllBits (i : Instr) : Prop := nonBitWires i = []

/-! ### Output vectors (R16 to R18) -/

/-- The width of the port `sum`. -/
def sumWidth : Component → Nat
  | .halfAdder => 1
  | .fullAdder => 1
  | .rippleCarryAdder32 => wordWidth

/-- The width of the port `carry`; the ripple adder has none (R18, R46). -/
def carryWidth : Component → Nat
  | .halfAdder => 1
  | .fullAdder => 1
  | .rippleCarryAdder32 => 0

/-- The component an output vector is of. -/
def Outputs.component : Outputs → Component
  | .halfAdder _ _ => .halfAdder
  | .fullAdder _ _ => .fullAdder
  | .adder _ => .rippleCarryAdder32

/-- The wires of the port `sum`. -/
def Outputs.sumWires : Outputs → List Level
  | .halfAdder s _ => [s]
  | .fullAdder s _ => [s]
  | .adder s => s

/-- The wires of the port `carry`. -/
def Outputs.carryWires : Outputs → List Level
  | .halfAdder _ c => [c]
  | .fullAdder _ c => [c]
  | .adder _ => []

/-- The output vector, bit 0 first: `{carry, sum}`, or `sum[W-1:0]` for the adder (R32 to R34). -/
def Outputs.vector (o : Outputs) : List Level := o.sumWires ++ o.carryWires

/-- Does a rule's result give outputs? -/
def EvalResult.isOutputs : EvalResult → Bool
  | .outputs _ => true
  | .nonBits _ => false

/-- Does the component settle to outputs of its rule, if it is given time (R63, R65)? -/
def Node.settles (d : Node) : Bool := d.steady && d.result.isOutputs

/-- Has the port `sum` the width of the component's (R46)? -/
def Outputs.wellFormed (o : Outputs) : Bool := o.sumWires.length == sumWidth o.component

/-! ### Operands of a stimulus line (R37) -/

/-- The newest entry under a name. -/
def lookupName {α : Type} (n : Name) : List (Name × α) → Option α
  | [] => none
  | e :: rest => if e.1 = n then some e.2 else lookupName n rest

/-- A host inverter: `NOT p = 1 - p` on a bit (R8). On a level that is no bit it gives a level that is none (log 13). -/
def hostNot (l : Level) : Level :=
  match l.isBit with
  | true => Level.ofBit (!l.isOne)
  | false => .unknown

/-- Why an operand has no meaning, given the bindings so far: a name that is not bound, or a port or bit the bound component
does not have (R16 to R18, R37). -/
def Operand.check (shapes : List (Name × Component)) : Operand → Option Refusal
  | .lit _ => none
  | .sum n => if (lookupName n shapes).isNone then some (.unknownBinding n) else none
  | .carry n =>
    match lookupName n shapes with
    | none => some (.unknownBinding n)
    | some c => if carryWidth c = 0 then some (.noSuchPort n) else none
  | .sumBit n i =>
    match lookupName n shapes with
    | none => some (.unknownBinding n)
    | some c => if i < sumWidth c then none else some (.noSuchBit n i)
  | .inv x => x.check shapes
  | .cat x y => (x.check shapes).or (y.check shapes)

/-- The number of wires of an operand (R7, R37). -/
def Operand.width (shapes : List (Name × Component)) : Operand → Nat
  | .lit ls => ls.length
  | .sum n => ((lookupName n shapes).map sumWidth).getD 0
  | .carry n => ((lookupName n shapes).map carryWidth).getD 0
  | .sumBit n i => if i < ((lookupName n shapes).map sumWidth).getD 0 then 1 else 0
  | .inv x => x.width shapes
  | .cat x y => x.width shapes + y.width shapes

/-- The levels on an operand's wires, bit 0 first, once what settles has settled (R28, R37). -/
def Operand.levels (nodes : List (Name × Node)) : Operand → List Level
  | .lit ls => ls
  | .sum n => ((lookupName n nodes).map fun d => d.outputs.sumWires).getD []
  | .carry n => ((lookupName n nodes).map fun d => d.outputs.carryWires).getD []
  | .sumBit n i => (((lookupName n nodes).map fun d => d.outputs.sumWires).getD [])[i]?.toList
  | .inv x => (x.levels nodes).map hostNot
  | .cat x y => y.levels nodes ++ x.levels nodes

/-- The time from which everything an operand refers to has settled (R28). -/
def Operand.readyAt (nodes : List (Name × Node)) : Operand → Nat
  | .lit _ => 0
  | .sum n => ((lookupName n nodes).map Node.readyAt).getD 0
  | .carry n => ((lookupName n nodes).map Node.readyAt).getD 0
  | .sumBit n _ => ((lookupName n nodes).map Node.readyAt).getD 0
  | .inv x => x.readyAt nodes
  | .cat x y => max (x.readyAt nodes) (y.readyAt nodes)

/-- Does everything an operand refers to settle? -/
def Operand.steady (nodes : List (Name × Node)) : Operand → Bool
  | .lit _ => true
  | .sum n => ((lookupName n nodes).map Node.settles).getD false
  | .carry n => ((lookupName n nodes).map Node.settles).getD false
  | .sumBit n _ => ((lookupName n nodes).map Node.settles).getD false
  | .inv x => x.steady nodes
  | .cat x y => x.steady nodes && y.steady nodes

/-- Does an operand refer to the binding n? -/
def Operand.refersTo (n : Name) : Operand → Bool
  | .lit _ => false
  | .sum m => m == n
  | .carry m => m == n
  | .sumBit m _ => m == n
  | .inv x => x.refersTo n
  | .cat x y => x.refersTo n || y.refersTo n

/-- The component a call evaluates. -/
def Call.component : Call → Component
  | .ha _ _ => .halfAdder
  | .fa _ _ _ => .fullAdder
  | .add32 _ _ => .rippleCarryAdder32

/-- The input ports of a call with their widths and operands (R16 to R18). -/
def Call.ports : Call → List (Port × Nat × Operand)
  | .ha a b => [(.a, 1, a), (.b, 1, b)]
  | .fa a b k => [(.a, 1, a), (.b, 1, b), (.carryIn, 1, k)]
  | .add32 a b => [(.a, wordWidth, a), (.b, wordWidth, b)]

/-- The width of each input port of a component (R16 to R18). -/
def portWidth : Component → Nat
  | .halfAdder => 1
  | .fullAdder => 1
  | .rippleCarryAdder32 => wordWidth

/-- The call with another operand on one of its ports; none where it has no such port (R16 to R18). -/
def Call.setPort (p : Port) (x : Operand) : Call → Option Call
  | .ha a b =>
    match p with
    | .a => some (.ha x b)
    | .b => some (.ha a x)
    | .carryIn => none
  | .fa a b k =>
    match p with
    | .a => some (.fa x b k)
    | .b => some (.fa a x k)
    | .carryIn => some (.fa a b x)
  | .add32 a b =>
    match p with
    | .a => some (.add32 x b)
    | .b => some (.add32 a x)
    | .carryIn => none

/-- Does some operand of a call refer to the binding n? -/
def Call.refersTo (n : Name) (c : Call) : Bool := c.ports.any fun p => p.2.2.refersTo n

/-- Why an operand can not be wired to a port: it has no meaning, or it has not the port's width (R36). -/
def Operand.checkPort (shapes : List (Name × Component)) (p : Port) (w : Nat) (x : Operand) : Option Refusal :=
  (x.check shapes).or (if x.width shapes = w then none else some (.operandWidth p w (x.width shapes)))

/-- Why a call has no meaning, given the bindings so far: the first port whose operand is refused. -/
def Call.check (shapes : List (Name × Component)) (c : Call) : Option Refusal :=
  c.ports.findSome? fun p => p.2.2.checkPort shapes p.1 p.2.1

/-- The input vector of a call (R32 to R34). -/
def Call.vector (nodes : List (Name × Node)) : Call → List Level
  | .ha a b => b.levels nodes ++ a.levels nodes
  | .fa a b k => k.levels nodes ++ b.levels nodes ++ a.levels nodes
  | .add32 a b => b.levels nodes ++ a.levels nodes

/-- The time from which everything a call refers to has settled (R28, R37). -/
def Call.readyAt (nodes : List (Name × Node)) (c : Call) : Nat :=
  c.ports.foldl (fun t p => max t (p.2.2.readyAt nodes)) 0

/-- Does everything a call refers to settle? -/
def Call.steady (nodes : List (Name × Node)) (c : Call) : Bool := c.ports.all fun p => p.2.2.steady nodes

/-- The call that drives an operation's own levels. -/
def Call.ofInstr : Instr → Call
  | .ha a b => .ha (.lit [a]) (.lit [b])
  | .fa a b k => .fa (.lit [a]) (.lit [b]) (.lit [k])
  | .add32 a b => .add32 (.lit a) (.lit b)

end Sys2Proof.Machine
end

