-- ==== Sys2Proof/Machine/Ops.lean ====
section
/-! DEFINITION. The shared operations of an evaluation. There is no memory, no register and no exception to operate on
(10_state.md R12, 20_memory.md R24, 60_exceptions.md R53, R58). -/

namespace Sys2Proof.Machine

/-- The outcome of an evaluation's rule: the outputs `o` where every input wire carries a bit, else the list of the wires that do
not, and no output value (R35, R54, R55). `o` is looked at only where it was computed from bits. -/
def resultOf (i : Instr) (o : Outputs) : EvalResult :=
  match nonBitWires i with
  | [] => .outputs o
  | w :: ws => .nonBits (w :: ws)

/-- End an evaluation of a component (R21): the host holds the inputs for the settle time and samples the outputs (R22, R64;
log 5), or the evaluation faults and nothing is sampled (R55, R58). -/
def State.conclude (s : State) (c : Component) : EvalResult → Host.Outcome State Fault Refusal
  | .outputs o => .next { s with now := s.now + Config.tSettle c, sampled := some o }
  | .nonBits ws => .fault (.nonBinaryInput ws)

/-- Outputs that are free draws, one for each bit, from draw k on (R63, R65, R66). -/
def drawnOutputs (k : Nat) : Component → Outputs
  | .halfAdder => .halfAdder (Config.freeLevel k) (Config.freeLevel (k + 1))
  | .fullAdder => .fullAdder (Config.freeLevel k) (Config.freeLevel (k + 1))
  | .rippleCarryAdder32 => .adder ((List.range wordWidth).map fun i => Config.freeLevel (k + i))

/-- The draws set aside for one look at a bench of so many instances: a word for each (log 6). -/
def drawsFor (instances : Nat) : Nat := wordWidth * instances

/-- Sample the outputs of a component that has not settled, with `older` instances before it: a fresh draw for every bit (R63, R65). -/
def State.sampleDrawn (s : State) (older : Nat) (c : Component) : State :=
  { s with sampled := some (drawnOutputs (s.draws + drawsFor older) c), draws := s.draws + drawsFor s.bench.length }

/-- Mark the fault of an evaluation of the component named n, which gives no output, and go on: a fault ends the evaluation it
occurs in and no other (R23, R55, R58; log 18). -/
def State.noteFault (s : State) (n : Name) : Host.Outcome State Fault Refusal → Host.Outcome State Fault Refusal
  | .next t => .next t
  | .fault f => .next { s with faults := (n, f) :: s.faults, sampled := none }
  | .refused r => .refused r

end Sys2Proof.Machine
end

