-- ==== Sys2Proof/Machine/FullAdder.lean ====
section
/-! DEFINITION. `full_adder` (41_full_adder.md). -/

namespace Sys2Proof.Machine

/-- The internal net `t` of a full adder (R19, R41). -/
def halfSum (a b : Bool) : Bool := a ^^ b

/-- The full adder on bits: `sum <- t XOR carryIn`, `carry <- (a AND b) OR (t AND carryIn)` (R41). -/
def fullAdd (a b carryIn : Bool) : SumCarry where
  sum := halfSum a b ^^ carryIn
  carry := (a && b) || (halfSum a b && carryIn)

/-- The rule of the full adder (R41). -/
def faResult (a b carryIn : Level) : EvalResult :=
  let r := fullAdd a.isOne b.isOne carryIn.isOne
  resultOf (.fa a b carryIn) (.fullAdder (.ofBit r.sum) (.ofBit r.carry))

/-- FA (R41): evaluate a full adder. -/
def execFa (a b carryIn : Level) (s : State) : Host.Outcome State Fault Refusal :=
  s.conclude .fullAdder (faResult a b carryIn)

end Sys2Proof.Machine
end

