-- ==== Sys2Proof/Machine/HalfAdder.lean ====
section
/-! DEFINITION. `half_adder` (40_half_adder.md). -/

namespace Sys2Proof.Machine

/-- The half adder on bits: `sum <- a XOR b`, `carry <- a AND b` (R38). -/
def halfAdd (a b : Bool) : SumCarry where
  sum := a ^^ b
  carry := a && b

/-- The rule of the half adder (R38). -/
def haResult (a b : Level) : EvalResult :=
  let r := halfAdd a.isOne b.isOne
  resultOf (.ha a b) (.halfAdder (.ofBit r.sum) (.ofBit r.carry))

/-- HA (R38): evaluate a half adder. -/
def execHa (a b : Level) (s : State) : Host.Outcome State Fault Refusal :=
  s.conclude .halfAdder (haResult a b)

end Sys2Proof.Machine
end

