-- ==== Sys2Proof/Machine/RippleAdder.lean ====
section
/-! DEFINITION. `ripple_carry_adder_32bit` (42_ripple_carry_adder.md): the chain of R44 for every width, and its instance at W. -/

namespace Sys2Proof.Machine

variable {w : Nat}

/-- Stage i of the chain (R44): stage 0 is a half adder, stage i a full adder whose `carryIn` is the carry net c[i-1]. -/
def stage (a b : BitVec w) : Nat → SumCarry
  | 0 => halfAdd (a.getLsbD 0) (b.getLsbD 0)
  | i + 1 => fullAdd (a.getLsbD (i + 1)) (b.getLsbD (i + 1)) (stage a b i).carry

/-- The carry net c[i] (R19). An internal net: no port, and nothing of the machine but the chain reads it (log 20). -/
def carryNet (a b : BitVec w) (i : Nat) : Bool := (stage a b i).carry

/-- The internal net t_i of stage i >= 1 (R19; log 20). -/
def halfSumNet (a b : BitVec w) (i : Nat) : Bool := halfSum (a.getLsbD i) (b.getLsbD i)

/-- The output bus of the chain (R44, R45): bit i is the `sum` of stage i; the carry of the top stage drives nothing (R46). -/
def rippleSum (a b : BitVec w) : BitVec w := bitsOf (fun i => (stage a b i).sum) w

/-- The source's `add(a, b)`: the rendering of the sum of two words (R10, R45). -/
def addText (w : Nat) (a b : Int) : List Char := render (rippleSum (enc w a) (enc w b))

/-- The rule of the ripple-carry adder (R45). -/
def addResult (a b : List Level) : EvalResult :=
  resultOf (.add32 a b) (.adder (busOf (rippleSum (busBits a) (busBits b))))

/-- ADD32 (R45): evaluate a ripple-carry adder of W bits. -/
def execAdd32 (a b : List Level) (s : State) : Host.Outcome State Fault Refusal :=
  s.conclude .rippleCarryAdder32 (addResult a b)

end Sys2Proof.Machine
end

