-- ==== Sys2Proof/Machine/Dispatch.lean ====
section
/-! DEFINITION. One arm per operation. -/

namespace Sys2Proof.Machine

def exec (i : Instr) (s : State) : Host.Outcome State Fault Refusal :=
  match i with
  | .ha a b => Sys2Proof.Machine.execHa a b s
  | .fa a b k => Sys2Proof.Machine.execFa a b k s
  | .add32 a b => Sys2Proof.Machine.execAdd32 a b s

end Sys2Proof.Machine
end

