-- ==== Sys2Proof/Machine/Netlist.lean ====
section
/-! DEFINITION. The components the host has instantiated, how they are wired, when they have settled, and what the host does to
them (10_state.md R20 to R23, 70_reset_and_hazards.md R63 to R67). -/

namespace Sys2Proof.Machine

/-- What the rule of the operation's component gives for its input vector (R20, R21). -/
def ruleResult : Instr → EvalResult
  | .ha a b => haResult a b
  | .fa a b k => faResult a b k
  | .add32 a b => addResult a b

/-- The input vector of a component nothing drives (R6, R63). -/
def undrivenInputs : Component → Instr
  | .halfAdder => .ha .undriven .undriven
  | .fullAdder => .fa .undriven .undriven .undriven
  | .rippleCarryAdder32 => .add32 (List.replicate wordWidth .undriven) (List.replicate wordWidth .undriven)

/-- The component of an instance. -/
def Instance.component (x : Instance) : Component :=
  match x.source with
  | .powerUp c => c
  | .driven call => call.component

/-- The name and component of each instance. -/
def shapes (bench : List Instance) : List (Name × Component) := bench.map fun x => (x.name, x.component)

/-- The levels on an instance's input wires once what it is wired to has settled. -/
def Instance.inputs (nodes : List (Name × Node)) (x : Instance) : Instr :=
  match x.source with
  | .powerUp c => undrivenInputs c
  | .driven call =>
    match decode call.component (call.vector nodes) with
    | .ok i => i
    | .error _ => undrivenInputs call.component

/-- Does everything an instance is wired to settle? -/
def Instance.steady (nodes : List (Name × Node)) (x : Instance) : Bool :=
  match x.source with
  | .powerUp _ => true
  | .driven call => call.steady nodes

/-- The time from which everything an instance is wired to has settled. -/
def Instance.sourceReadyAt (nodes : List (Name × Node)) (x : Instance) : Nat :=
  match x.source with
  | .powerUp _ => 0
  | .driven call => call.readyAt nodes

/-- The levels on the output wires of a component: its rule's outputs where its inputs are steady bits, and otherwise whatever
is there when they are looked at, a free draw from draw k on for every bit (R63; log 17). -/
def wireLevels (k : Nat) (c : Component) (steady : Bool) : EvalResult → Outputs
  | .outputs o => if steady then o else drawnOutputs k c
  | .nonBits _ => drawnOutputs k c

/-- The view of an instance, given those of the older ones and its first draw: its rule's result, and ready a settle time after
its inputs last changed and what it is wired to was ready (R28, R65, R66; log 24). -/
def Instance.node (k : Nat) (nodes : List (Name × Node)) (x : Instance) : Node :=
  let result := ruleResult (x.inputs nodes)
  { result := result
    steady := x.steady nodes
    readyAt := max x.changedAt (x.sourceReadyAt nodes) + Config.tSettle x.component
    outputs := wireLevels k x.component (x.steady nodes) result }

/-- Add an instance's view to those of the older ones. -/
def pushNode (k : Nat) (x : Instance) (nodes : List (Name × Node)) : List (Name × Node) :=
  (x.name, x.node (k + drawsFor nodes.length) nodes) :: nodes

/-- The view of every instance from draw k on, newest first. An instance sees older ones only, so no wiring has a loop (R67). -/
def nodes (k : Nat) (bench : List Instance) : List (Name × Node) := bench.foldr (pushNode k) []

/-- A look at the bench as it is. -/
def State.look (s : State) : List (Name × Node) := nodes s.draws s.bench

/-- What a component settles to, if it does. -/
def Node.settled (d : Node) : Option Outputs := if d.settles then some d.outputs else none

/-- What the outputs of the instance named n settle to (R20); for a binding, `n.sum` and `n.carry` (R37). -/
def State.output (s : State) (n : Name) : Option Outputs := (lookupName n s.look).bind Node.settled

/-- Instantiate a component for a stimulus line: once everything the line refers to has settled (R37), the line's operands drive
its inputs. The draws of the look at the bench are used up. -/
def State.place (s : State) (l : Line) : State :=
  let t := max s.now (l.call.readyAt s.look)
  { s with
    bench := { name := l.name, source := .driven l.call, changedAt := t, settledOnce := false } :: s.bench
    now := t
    draws := s.draws + drawsFor s.bench.length }

/-- Has a component settled by the time t (R65)? -/
def Node.settledBy (d : Node) (t : Nat) : Bool := d.settles && decide (d.readyAt ≤ t)

/-- Note for each instance that it has settled since power-up, if it has by the time t (R63). -/
def remember (k t : Nat) : List Instance → List Instance
  | [] => []
  | x :: rest =>
    { x with settledOnce := x.settledOnce || (x.node k (nodes k rest)).settledBy t } :: remember k t rest

/-- Let `src` drive the newest instance named n from time t on. Driving what drives it already is no change (log 15). -/
def redrive (n : Name) (src : Source) (t : Nat) : List Instance → List Instance
  | [] => []
  | x :: rest =>
    if x.name = n then (if x.source = src then x else { x with source := src, changedAt := t }) :: rest
    else x :: redrive n src t rest

/-- Let the operands of `call` drive the newest instance named n from now on, and note first what has settled (R63, R66; log 15). -/
def State.rewire (s : State) (n : Name) (call : Call) : State :=
  { s with bench := redrive n (.driven call) s.now (remember s.draws s.now s.bench) }

/-- The host drives the inputs of the component named n with the levels of `i` (R22, R66). Where n names no component of this
kind yet, one is instantiated under that name (R23; log 15). -/
def State.drive (s : State) (n : Name) (i : Instr) : State :=
  if lookupName n (shapes s.bench) = some i.component then
    s.rewire n (Call.ofInstr i)
  else
    { s with
      bench := { name := n, source := .driven (Call.ofInstr i), changedAt := s.now, settledOnce := false } :: s.bench }

/-- The operands on a component's ports: undriven wires where nothing drives it (R6, R63). -/
def Source.call : Source → Call
  | .powerUp c => .ofInstr (undrivenInputs c)
  | .driven call => call

/-- The newest instance named n, with the instances newer and older than it. -/
def newest (n : Name) : List Instance → Option (List Instance × Instance × List Instance)
  | [] => none
  | x :: rest => if x.name = n then some ([], x, rest) else (newest n rest).map fun r => (x :: r.1, r.2)

/-- Instantiate a component that nothing drives yet (R63). DESIGN CHOICE (log 25): so too under a name in use, which then means the
new component; the older one is not powered up again and keeps what is wired to it. Unsafe for a claim about what is wired to it. -/
def State.powerUp (s : State) (n : Name) (c : Component) : State :=
  { s with bench := { name := n, source := .powerUp c, changedAt := s.now, settledOnce := false } :: s.bench }

/-- Sample an instance x with these older ones (R20, R22, R35, R63, R65; log 16): what its rule gives once its inputs have been
steady for its settle time, free draws before. Where an input is not a bit that is the fault of R35, or, until the component
has settled once since power-up, draws again (R63). -/
def State.sampleInstance (s : State) (x : Instance) (older : List Instance) : Host.Outcome State Fault Refusal :=
  let d := x.node (s.draws + drawsFor older.length) (nodes s.draws older)
  if d.steady = true ∧ d.readyAt ≤ s.now then
    match d.result with
    | .outputs o => .next { s with sampled := some o }
    | .nonBits ws =>
      if x.settledOnce then .fault (.nonBinaryInput ws) else .next (s.sampleDrawn older.length x.component)
  else .next (s.sampleDrawn older.length x.component)

/-- Sample the newest instance named n, among a bench's. -/
def State.sampleIn (s : State) (n : Name) : List Instance → Host.Outcome State Fault Refusal
  | [] => .refused (.noSuchInstance n)
  | x :: rest => if x.name = n then s.sampleInstance x rest else s.sampleIn n rest

/-- Does an action of the host bind the name (R37)? -/
def Action.binds (n : Name) : Action → Bool
  | .stimulus l => l.name == n
  | .drive m _ _ => m == n
  | .change _ _ _ => false
  | .hold _ => false
  | .sample _ => false
  | .powerUp m _ => m == n

/-- Name the refusal of a line: an unbound name that the line itself or a later action binds is a later binding (R37, R67). -/
def State.refusalOf (s : State) (l : Line) : Refusal → Refusal
  | .unknownBinding n =>
    if l.name = n ∨ s.actions.any (Action.binds n) then .laterBinding n else .unknownBinding n
  | r => r

/-- Change one input port of the component named n to what `x` reads, the others staying as they are (R22, R66). `x` is resolved among
the instances older than that component; one that refers to the component itself or to a newer one is refused as a later binding
(R37, R67; log 26). -/
def State.change (s : State) (n : Name) (p : Port) (x : Operand) : Host.Outcome State Fault Refusal :=
  match newest n s.bench with
  | none => .refused (.noSuchInstance n)
  | some (newer, y, older) =>
    match y.source.call.setPort p x with
    | none => .refused (.noSuchInput n p)
    | some call =>
      match (newer ++ [y]).find? (fun z => x.refersTo z.name) with
      | some z => .refused (.laterBinding z.name)
      | none =>
        match x.checkPort (shapes older) p (portWidth call.component) with
        | some r => .refused (s.refusalOf { name := n, call := call } r)
        | none => .next (s.rewire n call)

end Sys2Proof.Machine
end

