-- ==== Sys2Proof/Machine/Actions.lean ====
section
/-! DEFINITION. What each action of the host does (10_state.md R21, R22; 30_encoding.md R37). -/

namespace Sys2Proof.Machine

/-- What the host samples at the end of an evaluation that went on, of a component with `older` instances before it: what it sampled
where everything the component is wired to settles, and free draws where it does not, since its inputs are then not held (R63, R65,
R66; log 17). -/
def State.sampleWired (older : Nat) (c : Component) (steady : Bool) :
    Host.Outcome State Fault Refusal → Host.Outcome State Fault Refusal
  | .next t => .next (if steady then t else t.sampleDrawn older c)
  | .fault f => .fault f
  | .refused r => .refused r

/-- Run a stimulus line (R21, R37): its operands give the input vector of the component it names, the vector is decoded, the
component is instantiated with the operands driving it, and the operation is evaluated. A fault of it is marked (log 18). -/
def State.runLine (s : State) (l : Line) : Host.Outcome State Fault Refusal :=
  match l.call.check (shapes s.bench) with
  | some r => .refused (s.refusalOf l r)
  | none =>
    match decode l.call.component (l.call.vector s.look) with
    | .error e => .refused (.undecodable e)
    | .ok i =>
      let p := s.place l
      p.noteFault l.name (State.sampleWired s.bench.length l.call.component (l.call.steady s.look) (exec i p))

/-- Do one action of the host. -/
def State.perform (s : State) : Action → Host.Outcome State Fault Refusal
  | .stimulus l => s.runLine l
  | .drive n c v =>
    match decode c v with
    | .error e => .refused (.undecodable e)
    | .ok i => .next (s.drive n i)
  | .change n p x => s.change n p x
  | .hold t => .next { s with now := s.now + t }
  | .sample n => s.noteFault n (s.sampleIn n s.bench)
  | .powerUp n c => .next (s.powerUp n c)

/-- The stimulus line that drives an operation's own levels. -/
def Line.ofInstr (n : Name) (i : Instr) : Line where
  name := n
  call := .ofInstr i

/-- The name `State.withFetchWord` gives the component it evaluates. -/
def fetchName : Name := "dut"

end Sys2Proof.Machine
end

