-- ==== Sys2Proof/Machine/Step.lean ====
section
/-! DEFINITION. One step: the host's next action. -/

namespace Sys2Proof.Machine

/-- Take the oldest pending action and do it. Where none is pending nothing happens (log 19). -/
def step (s : State) : Host.Outcome State Fault Refusal :=
  match s.actions with
  | [] => .next s
  | act :: rest => State.perform { s with actions := rest } act

/-- `s` with the evaluation of the input vector `w` of `nbits` bits as the host's next action (log 1). -/
def State.withFetchWord (s : State) (nbits w : Nat) : State :=
  match decodeTableWord nbits w with
  | some i => { s with actions := .stimulus (Line.ofInstr fetchName i) :: s.actions }
  | none => s

end Sys2Proof.Machine
end

