-- ==== Sys2Proof/Machine/Flags.lean ====
section
/-! DEFINITION. The block has no flags and no condition codes (10_state.md R14): no operation writes one and State holds none.
What an adder's flags would say is defined here as a function of the operands, for statements only: nothing of the machine reads it. -/

namespace Sys2Proof.Machine

variable {w : Nat}

/-- The carry out of the top stage, c[W-1], which drives no port (R46). -/
def discardedCarry (a b : BitVec w) : Bool := carryNet a b (w - 1)

/-- The integer k of the signed law: 0, or -1 or 1 where the signed sum leaves the range of the word and wraps silently (R48). -/
def signedWrap (a b : BitVec w) : Int :=
  if sval a + sval b < -2 ^ (w - 1) then 1
  else if sval a + sval b < 2 ^ (w - 1) then 0
  else -1

end Sys2Proof.Machine
end

