-- ==== Sys2Proof/Machine/StimulusText.lean ====
section
/-! DEFINITION. The text of a stimulus line (30_encoding.md R37): `<name> = <op> <operands>`. What the rule leaves open of it (the
letters of a name, the word NOT, spaces, comments) is in log 21. The machine runs `Line`s, never their text. -/

namespace Sys2Proof.Machine

/-- A word of letters, digits and `_`, or one mark. -/
inductive Token where
  | word (cs : List Char)
  | mark (c : Char)
deriving DecidableEq, Repr

/-- The braces of `{x, y}`, by their codes. -/
def openBrace : Char := Char.ofNat 123
def closeBrace : Char := Char.ofNat 125

def isWordChar (c : Char) : Bool := c.isAlphanum || c == '_'

/-- The word read so far, if there is one. -/
def endWord (cur : List Char) : List Token := if cur.isEmpty then [] else [.word cur]

/-- Split a line into tokens; `cur` is the word being read. Spaces separate, and `;` opens a comment. -/
def tokens (cur : List Char) : List Char → List Token
  | [] => endWord cur
  | c :: cs =>
    if isWordChar c then tokens (cur ++ [c]) cs
    else if c = ';' then endWord cur
    else if c.isWhitespace then endWord cur ++ tokens [] cs
    else endWord cur ++ .mark c :: tokens [] cs

def hexDigit (c : Char) : Option Nat :=
  if '0' ≤ c ∧ c ≤ '9' then some (c.toNat - '0'.toNat)
  else if 'a' ≤ c ∧ c ≤ 'f' then some (c.toNat - 'a'.toNat + 10)
  else if 'A' ≤ c ∧ c ≤ 'F' then some (c.toNat - 'A'.toNat + 10)
  else none

/-- A number written in a base of at most 16; none where a letter is no digit of it or there is no digit. -/
def number (base : Nat) (cs : List Char) : Option Nat :=
  if cs.isEmpty then none
  else cs.foldlM (fun n c => (hexDigit c).bind fun d => if d < base then some (base * n + d) else none) 0

/-- A literal: `0` or `1`, or `0x` and 8 hex digits (R37). -/
def literal : List Char → Option Operand
  | ['0'] => some (.lit [.zero])
  | ['1'] => some (.lit [.one])
  | '0' :: 'x' :: digits =>
    if digits.length = 8 then (number 16 digits).map fun n => .lit (vectorOfNat wordWidth n) else none
  | _ => none

/-- A name begins with a letter. -/
def nameOf (cs : List Char) : Option Name :=
  match cs with
  | c :: _ => if c.isAlpha then some (String.ofList cs) else none
  | [] => none

/-- What follows a name in a reference: `.sum`, `.carry` or `.sum[i]`. -/
def reference (n : Name) : List Token → Option (Operand × List Token)
  | .mark '.' :: .word ['s', 'u', 'm'] :: .mark '[' :: .word i :: .mark ']' :: rest =>
    (number 10 i).map fun k => (.sumBit n k, rest)
  | .mark '.' :: .word ['s', 'u', 'm'] :: rest => some (.sum n, rest)
  | .mark '.' :: .word ['c', 'a', 'r', 'r', 'y'] :: rest => some (.carry n, rest)
  | _ => none

/-- Drop one expected mark. -/
def dropMark (c : Char) : List Token → Option (List Token)
  | .mark d :: rest => if d = c then some rest else none
  | _ => none

/-- Read one operand; `fuel` bounds its nesting. DESIGN CHOICE (log 21): the word NOT in an operand is the inverter only, so a binding
of that name, which R37 does not exclude and `parseTokens` accepts, can not be referred to in text. Safe: a `Line` takes any name. -/
def parseOperand : Nat → List Token → Option (Operand × List Token)
  | 0, _ => none
  | fuel + 1, .word cs :: rest =>
    if cs = ['N', 'O', 'T'] then
      (dropMark '(' rest).bind fun r1 => (parseOperand fuel r1).bind fun (x, r2) =>
        (dropMark ')' r2).map fun r3 => (.inv x, r3)
    else match literal cs with
      | some x => some (x, rest)
      | none => (nameOf cs).bind fun n => reference n rest
  | fuel + 1, .mark c :: rest =>
    if c = openBrace then
      (parseOperand fuel rest).bind fun (x, r1) => (dropMark ',' r1).bind fun r2 =>
        (parseOperand fuel r2).bind fun (y, r3) => (dropMark closeBrace r3).map fun r4 => (.cat x y, r4)
    else none
  | _ + 1, [] => none

/-- Read operands separated by commas, to the end of the line. -/
def parseOperands : Nat → List Token → Option (List Operand)
  | 0, _ => none
  | fuel + 1, ts =>
    (parseOperand (fuel + 1) ts).bind fun (x, rest) =>
      match rest with
      | [] => some [x]
      | .mark ',' :: more => (parseOperands fuel more).map fun xs => x :: xs
      | _ => none

/-- The call of an operation's name and operands. -/
def callOf : List Char → List Operand → Option Call
  | ['H', 'A'], [a, b] => some (.ha a b)
  | ['F', 'A'], [a, b, k] => some (.fa a b k)
  | ['A', 'D', 'D', '3', '2'], [a, b] => some (.add32 a b)
  | _, _ => none

/-- Read the tokens of a line. -/
def parseTokens : List Token → Option Line
  | .word n :: .mark '=' :: .word op :: rest =>
    (nameOf n).bind fun name => (parseOperands (rest.length + 1) rest).bind fun xs =>
      (callOf op xs).map fun call => { name := name, call := call }
  | _ => none

/-- Read one stimulus line. -/
def parseLine (text : List Char) : Option Line := parseTokens (tokens [] text)

/-- A stimulus program as the host's actions, in the order of its lines (R37). -/
def programActions (lines : List Line) : List Action := lines.map .stimulus

end Sys2Proof.Machine
end

