-- ==== Sys2Proof/Safety.lean ====
section
/-! DEFINITION. What a sound bench is, and what a safe step is, in the terms the statements use. -/

namespace Sys2Proof.Machine

/-- Every instance is wired to older instances only, each through a port it has and with the port's width: the wiring is a
netlist without loops (70_reset_and_hazards.md R67), of the widths of R16 to R18. -/
def wired : List Instance → Bool
  | [] => true
  | x :: rest =>
    (match x.source with
      | .powerUp _ => true
      | .driven call => (call.check (shapes rest)).isNone) && wired rest

/-- The invariant of the model: the wiring is a netlist, no input has changed in the future, a component that nothing drives has
never settled (R63), and what the host got back is as wide as the port it sampled (R46). -/
structure State.Inv (s : State) : Prop where
  wiring : wired s.bench = true
  past : ∀ x ∈ s.bench, x.changedAt ≤ s.now
  undriven : ∀ x ∈ s.bench, ∀ c, x.source = .powerUp c → x.settledOnce = false
  width : ∀ o, s.sampled = some o → o.wellFormed = true

/-- For each instance, newest first: is it the newest one named n, or wired to that one, directly or through others (R23)? -/
def dependents (n : Name) : List Instance → List (Name × Bool)
  | [] => []
  | x :: rest =>
    if x.name = n then (x.name, true) :: rest.map fun y => (y.name, false)
    else
      let below := dependents n rest
      (x.name,
        match x.source with
        | .powerUp _ => false
        | .driven call => below.any fun e => call.refersTo e.1 && (lookupName e.1 below == some true)) :: below

/-- An operand has a meaning and w wires, given the bindings so far: every name it refers to is bound, to a component that has the
port and the bit it reads (R16 to R18, R37, R46). -/
def Operand.Fits (shapes : List (Name × Component)) : Operand → Nat → Prop
  | .lit ls, w => ls.length = w
  | .sum n, w =>
    (w = 1 ∧ (lookupName n shapes = some .halfAdder ∨ lookupName n shapes = some .fullAdder)) ∨
    (w = wordWidth ∧ lookupName n shapes = some .rippleCarryAdder32)
  | .carry n, w => w = 1 ∧ (lookupName n shapes = some .halfAdder ∨ lookupName n shapes = some .fullAdder)
  | .sumBit n i, w => w = 1 ∧
    ((i = 0 ∧ (lookupName n shapes = some .halfAdder ∨ lookupName n shapes = some .fullAdder)) ∨
     (i < wordWidth ∧ lookupName n shapes = some .rippleCarryAdder32))
  | .inv x, w => x.Fits shapes w
  | .cat x y, w => ∃ u v, w = u + v ∧ x.Fits shapes u ∧ y.Fits shapes v

/-- The operands of a call have a meaning and the widths of the ports they stand on (R16 to R18). -/
def Call.Fits (shapes : List (Name × Component)) : Call → Prop
  | .ha a b => a.Fits shapes 1 ∧ b.Fits shapes 1
  | .fa a b k => a.Fits shapes 1 ∧ b.Fits shapes 1 ∧ k.Fits shapes 1
  | .add32 a b => a.Fits shapes wordWidth ∧ b.Fits shapes wordWidth

/-- The pending action evaluates the component named n with the input vector i: a stimulus line whose operands give i, or a
sample of the newest instance named n, on whose input wires i is (R21). -/
def State.Evaluates (s : State) (n : Name) (i : Instr) : Prop :=
  (∃ l rest, s.actions = .stimulus l :: rest ∧ l.name = n ∧ l.call.check (shapes s.bench) = none ∧
    decode l.call.component (l.call.vector s.look) = .ok i) ∨
  ∃ rest newer x older, s.actions = .sample n :: rest ∧ s.bench = newer ++ x :: older ∧ x.name = n ∧
    (∀ y ∈ newer, y.name ≠ n) ∧ i = x.inputs (nodes s.draws older)

/-- Every component wired to the newest instance named n is ready no earlier than its own settle time after the time r (R28, R65). -/
def State.ReadyBehind (s : State) (n : Name) (r : Nat) : Prop :=
  ∀ newer y older call e, s.bench = newer ++ y :: older → y.source = .driven call → call.refersTo n = true →
    (∀ z ∈ newer, z.name ≠ n) → y.name ≠ n → s.look[newer.length]? = some (y.name, e) →
    r + Config.tSettle call.component ≤ e.readyAt

/-- No evaluation has faulted: only such a state is a final state for a claim (R55). -/
def State.Unmarked (s : State) : Prop := s.faults = []

/-- A step that goes on without a fault mark: neither refused nor an evaluation that faults (R54, R55). -/
def State.Safe (s : State) : Prop := ∃ t, step s = .next t ∧ t.faults = s.faults

end Sys2Proof.Machine
end

