-- ==== Sys2Proof/Certificates/Slice0/Obligations.lean ====
section
/-! DEFINITION. The statements for the provers. Each docstring names the rule of spec/ the statement formalises. -/

open Sys2Proof Sys2Proof.Machine

/-! ### half_adder (40_half_adder.md) -/

/-- R38. In format HA a half adder whose inputs are bits completes with sum = a XOR b and carry = a AND b; otherwise it faults and
gives no output. The corner cases and the example of the rule are the last clauses. -/
def Obligations.HalfAdderEvaluation : Prop :=
  ∀ (a b : Level) (s : State),
    decode .halfAdder [b, a] = .ok (.ha a b) ∧
    (a.isBit = true → b.isBit = true → ∃ t, exec (.ha a b) s = .next t ∧
      t.sampled = some (.halfAdder (.ofBit (a.isOne ^^ b.isOne)) (.ofBit (a.isOne && b.isOne)))) ∧
    (a.isBit = false ∨ b.isBit = false → ∃ ws, exec (.ha a b) s = .fault (.nonBinaryInput ws)) ∧
    (a.isBit = true → ∃ t, exec (.ha a a) s = .next t ∧ t.sampled = some (.halfAdder .zero a)) ∧
    (∃ t, exec (.ha .one .one) s = .next t ∧ t.sampled = some (.halfAdder .zero .one))

/-- R39. The output vector `{carry, sum}` of a half adder, read as an unsigned number, is a + b. -/
def Obligations.HalfAdderCountsItsInputs : Prop :=
  ∀ (a b : Bool) (s : State), ∃ t o, exec (.ha (.ofBit a) (.ofBit b)) s = .next t ∧ t.sampled = some o ∧
    levelsValue o.vector = a.toNat + b.toNat ∧
    2 * (halfAdd a b).carry.toNat + (halfAdd a b).sum.toNat = a.toNat + b.toNat

/-- R40. A half adder is commutative, and is a full adder whose carryIn is 0. -/
def Obligations.HalfAdderCommutes : Prop :=
  ∀ (a b : Bool) (s : State), ∃ t u v sum carry,
    exec (.ha (.ofBit a) (.ofBit b)) s = .next t ∧ t.sampled = some (.halfAdder sum carry) ∧
    exec (.ha (.ofBit b) (.ofBit a)) s = .next u ∧ u.sampled = some (.halfAdder sum carry) ∧
    exec (.fa (.ofBit a) (.ofBit b) .zero) s = .next v ∧ v.sampled = some (.fullAdder sum carry)

/-! ### full_adder (41_full_adder.md) -/

/-- R41. In format FA a full adder whose inputs are bits completes with t = a XOR b, sum = t XOR carryIn and carry =
(a AND b) OR (t AND carryIn); otherwise it faults. The corner cases and the example of the rule are the last clauses. -/
def Obligations.FullAdderEvaluation : Prop :=
  ∀ (a b k : Level) (s : State),
    decode .fullAdder [k, b, a] = .ok (.fa a b k) ∧
    (a.isBit = true → b.isBit = true → k.isBit = true → ∃ t, exec (.fa a b k) s = .next t ∧
      t.sampled = some (.fullAdder (.ofBit ((a.isOne ^^ b.isOne) ^^ k.isOne))
        (.ofBit ((a.isOne && b.isOne) || ((a.isOne ^^ b.isOne) && k.isOne))))) ∧
    (a.isBit = false ∨ b.isBit = false ∨ k.isBit = false → ∃ ws, exec (.fa a b k) s = .fault (.nonBinaryInput ws)) ∧
    (a.isBit = true → k.isBit = true → ∃ t, exec (.fa a a k) s = .next t ∧ t.sampled = some (.fullAdder k a)) ∧
    (a.isBit = true → b.isBit = true → ∃ t sum carry, exec (.fa a b .zero) s = .next t ∧
      t.sampled = some (.fullAdder sum carry) ∧ ∃ u, exec (.ha a b) s = .next u ∧ u.sampled = some (.halfAdder sum carry)) ∧
    (∃ t, exec (.fa .zero .zero .zero) s = .next t ∧ t.sampled = some (.fullAdder .zero .zero)) ∧
    (∃ t, exec (.fa .one .one .one) s = .next t ∧ t.sampled = some (.fullAdder .one .one)) ∧
    (∃ t, exec (.fa .one .zero .one) s = .next t ∧ t.sampled = some (.fullAdder .zero .one))

/-- R42. The output vector of a full adder is a + b + carryIn; its carry is the majority of the three inputs. -/
def Obligations.FullAdderCountsItsInputs : Prop :=
  ∀ (a b k : Bool) (s : State), ∃ t sum carry,
    exec (.fa (.ofBit a) (.ofBit b) (.ofBit k)) s = .next t ∧ t.sampled = some (.fullAdder (.ofBit sum) (.ofBit carry)) ∧
    levelsValue (Outputs.fullAdder (.ofBit sum) (.ofBit carry)).vector = a.toNat + b.toNat + k.toNat ∧
    2 * carry.toNat + sum.toNat = a.toNat + b.toNat + k.toNat ∧
    (carry = true ↔ 2 ≤ a.toNat + b.toNat + k.toNat) ∧ carry = ((a && b) || (a && k) || (b && k))

/-- R43. A full adder is symmetric in its three inputs, and FA(a, b, 0) = HA(a, b). -/
def Obligations.FullAdderSymmetric : Prop :=
  ∀ (a b k : Bool) (s : State), ∃ t o,
    exec (.fa (.ofBit a) (.ofBit b) (.ofBit k)) s = .next t ∧ t.sampled = some o ∧
    exec (.fa (.ofBit a) (.ofBit k) (.ofBit b)) s = .next t ∧ exec (.fa (.ofBit b) (.ofBit a) (.ofBit k)) s = .next t ∧
    exec (.fa (.ofBit b) (.ofBit k) (.ofBit a)) s = .next t ∧ exec (.fa (.ofBit k) (.ofBit a) (.ofBit b)) s = .next t ∧
    exec (.fa (.ofBit k) (.ofBit b) (.ofBit a)) s = .next t ∧ fullAdd a b false = halfAdd a b ∧
    ∃ u v p, exec (.fa (.ofBit a) (.ofBit b) .zero) s = .next u ∧ u.sampled = some p ∧
      exec (.ha (.ofBit a) (.ofBit b)) s = .next v ∧ v.sampled.map Outputs.vector = some p.vector

/-! ### ripple_carry_adder_32bit (42_ripple_carry_adder.md); W is any width >= 1 where w stands -/

/-- R44. The adder is one half adder and W-1 full adders in a chain, and its closed form gives the same bits. -/
def Obligations.RippleChainStructure : Prop :=
  ∀ (w : Nat) (a b : BitVec w), 0 < w →
    halfAdd (a.getLsbD 0) (b.getLsbD 0) = { sum := (rippleSum a b).getLsbD 0, carry := carryNet a b 0 } ∧
    (∀ i, i + 1 < w → fullAdd (a.getLsbD (i + 1)) (b.getLsbD (i + 1)) (carryNet a b i) =
      { sum := (rippleSum a b).getLsbD (i + 1), carry := carryNet a b (i + 1) }) ∧
    rippleSum a b = a + b

/-- R45. In format ADD32 an adder whose input wires are bits completes with the sum bus of the chain; otherwise it faults. Its
result as text is the rendering of the sum; one bus on both inputs is shifted left by one; all ones plus one carries through every
stage; the example is add(5, 3). (The vectors of R34 are the lists of W wires; what a list of another length reads as is log 9.) -/
def Obligations.RippleAdderEvaluation : Prop :=
  (∀ (a b : List Level) (s : State),
    (a.length = wordWidth → b.length = wordWidth → decode .rippleCarryAdder32 (b ++ a) = .ok (.add32 a b)) ∧
    ((∀ i, i < wordWidth → (busWire a i).isBit = true ∧ (busWire b i).isBit = true) →
      ∃ t, exec (.add32 a b) s = .next t ∧ t.sampled = some (.adder (busOf (rippleSum (busBits a) (busBits b))))) ∧
    ((∃ i, i < wordWidth ∧ ((busWire a i).isBit = false ∨ (busWire b i).isBit = false)) →
      ∃ ws, exec (.add32 a b) s = .fault (.nonBinaryInput ws))) ∧
  (∀ (w : Nat) (x y : Int), addText w x y = render (rippleSum (enc w x) (enc w y)) ∧ (addText w x y).length = w) ∧
  (∀ (w : Nat) (x : BitVec w), rippleSum x x = enc w (2 * uval x) ∧ rippleSum x x = x <<< 1) ∧
  (∀ (w i : Nat), i < w → carryNet (BitVec.allOnes w) 1#w i = true) ∧
  addText 32 5 3 = "00000000000000000000000000001000".toList

/-- R31. Stage i takes the bits a[i] and b[i] of the input buses, each the wire of that number, and of the operands nothing else but
what the stage below carries; bit 0 after i right shifts, logical or arithmetic, is that same bit. -/
def Obligations.StageTakesItsOwnBits : Prop :=
  (∀ (a b : List Level) (i : Nat), i < wordWidth →
    (busBits a).getLsbD i = (busWire a i).isOne ∧ (busBits b).getLsbD i = (busWire b i).isOne ∧
    stage (busBits a) (busBits b) i = fullAdd (busWire a i).isOne (busWire b i).isOne
      (if i = 0 then false else carryNet (busBits a) (busBits b) (i - 1))) ∧
  ∀ (w : Nat) (x : BitVec w) (i : Nat), i < w →
    (x >>> i).getLsbD 0 = x.getLsbD i ∧ (x.sshiftRight i).getLsbD 0 = x.getLsbD i

/-- R46. The sum has exactly W wires for every input, and nothing sampled tells that a carry was discarded: inputs whose sums
agree modulo 2^W give the same output, whatever carry they discard. The host can recompute the carry from the ports. -/
def Obligations.SumWidthAndDiscardedCarry : Prop :=
  (∀ (a b : Word) (s : State), ∃ t out, exec (.add32 (busOf a) (busOf b)) s = .next t ∧
    t.sampled = some (.adder out) ∧ out.length = wordWidth) ∧
  (∀ (a b a' b' : Word) (s : State), (uval a + uval b) % 2 ^ wordWidth = (uval a' + uval b') % 2 ^ wordWidth →
    ∃ t, exec (.add32 (busOf a) (busOf b)) s = .next t ∧ exec (.add32 (busOf a') (busOf b')) s = .next t) ∧
  (∀ (w : Nat) (x y : Int), (toBitString w x).length = w ∧ (addText w x y).length = w) ∧
  ∀ (w : Nat) (a b : BitVec w), 2 ≤ w → ∀ i, i = w - 1 →
    discardedCarry a b =
      (fullAdd (a.getLsbD i) (b.getLsbD i) ((rippleSum a b).getLsbD i ^^ a.getLsbD i ^^ b.getLsbD i)).carry

/-- R47. The unsigned law. -/
def Obligations.UnsignedSumWraps : Prop :=
  (∀ (w : Nat) (a b : BitVec w), uval (rippleSum a b) = (uval a + uval b) % 2 ^ w) ∧
  ∀ (a b : Word) (s : State), ∃ t out, exec (.add32 (busOf a) (busOf b)) s = .next t ∧ t.sampled = some (.adder out) ∧
    levelsValue out = (uval a + uval b) % 2 ^ wordWidth

/-- R48. The signed law: the sum wraps silently by the one k in -1, 0, 1 that puts it in range. -/
def Obligations.SignedSumWraps : Prop :=
  ∀ (w : Nat) (a b : BitVec w), 0 < w →
    sval (rippleSum a b) = sval a + sval b + signedWrap a b * 2 ^ w ∧
    (signedWrap a b = -1 ∨ signedWrap a b = 0 ∨ signedWrap a b = 1) ∧
    -2 ^ (w - 1) ≤ sval a + sval b + signedWrap a b * 2 ^ w ∧ sval a + sval b + signedWrap a b * 2 ^ w < 2 ^ (w - 1) ∧
    (∀ k : Int, -2 ^ (w - 1) ≤ sval a + sval b + k * 2 ^ w → sval a + sval b + k * 2 ^ w < 2 ^ (w - 1) →
      k = signedWrap a b) ∧
    rippleSum a b = enc w (sval a + sval b)

/-- R49. The carry-net law. -/
def Obligations.CarryNets : Prop :=
  ∀ (w : Nat) (a b : BitVec w) (i : Nat), i < w →
    (carryNet a b i).toNat = (uval (subBus a i 0) + uval (subBus b i 0)) / 2 ^ (i + 1) ∧
    uval (subBus (rippleSum a b) i 0) = (uval (subBus a i 0) + uval (subBus b i 0)) % 2 ^ (i + 1) ∧
    (carryNet a b i = true ↔ 2 ^ (i + 1) ≤ uval (subBus a i 0) + uval (subBus b i 0)) ∧
    uval a + uval b = uval (rippleSum a b) + (discardedCarry a b).toNat * 2 ^ w ∧
    (1 ≤ i → (rippleSum a b).getLsbD i = (a.getLsbD i ^^ b.getLsbD i ^^ carryNet a b (i - 1))) ∧
    (rippleSum a b).getLsbD 0 = (a.getLsbD 0 ^^ b.getLsbD 0)

/-- R50. The adder is commutative bit for bit, its carries included, and 0 is its identity. -/
def Obligations.AdderCommutesWithIdentity : Prop :=
  (∀ (w : Nat) (a b : BitVec w), rippleSum a b = rippleSum b a ∧ (∀ i, carryNet a b i = carryNet b a i) ∧
    rippleSum a 0#w = a ∧ ∀ i, carryNet a 0#w i = false) ∧
  ∀ (w : Nat) (x y : Int), addText w x y = addText w y x ∧ addText w x 0 = toBitString w x

/-- R52. There is no third operand: a chain whose stage 0 is a full adder with carryIn 0 gives the same sum. Adding twice gives
a + b + 1. -/
def Obligations.NoCarryIn : Prop :=
  ∀ (w : Nat) (a b : BitVec w) (f : Nat → SumCarry),
    f 0 = fullAdd (a.getLsbD 0) (b.getLsbD 0) false →
    (∀ i, f (i + 1) = fullAdd (a.getLsbD (i + 1)) (b.getLsbD (i + 1)) (f i).carry) →
    (∀ i, i < w → (rippleSum a b).getLsbD i = (f i).sum) ∧
    uval (rippleSum (rippleSum a b) (enc w 1)) = (uval a + uval b + 1) % 2 ^ w

/-- R68. Bit i of the sum depends on every operand bit at or below i and on none above; the settle time of the adder is at least
the time along its chain. -/
def Obligations.SumBitDependsOnBitsBelow : Prop :=
  ∀ (w : Nat) (i : Nat), i < w →
    (∀ a b a' b' : BitVec w, (∀ j, j ≤ i → a.getLsbD j = a'.getLsbD j ∧ b.getLsbD j = b'.getLsbD j) →
      (rippleSum a b).getLsbD i = (rippleSum a' b').getLsbD i) ∧
    (∀ j, j ≤ i → ∃ a a' b : BitVec w, (∀ k, k ≠ j → a.getLsbD k = a'.getLsbD k) ∧
      (rippleSum a b).getLsbD i ≠ (rippleSum a' b).getLsbD i ∧ (rippleSum b a).getLsbD i ≠ (rippleSum b a').getLsbD i) ∧
    Config.chainDelay w ≤ Config.tSettleADD w

/-! ### Formats, decoding and legal vectors (30_encoding.md) -/

/-- Decoding the input vector of a well-formed operation gives the operation back (R32 to R34). -/
def Obligations.DecodeEncodeAgree : Prop :=
  ∀ i : Instr, i.wellFormed = true →
    decode i.component (encode i) = .ok i ∧ (encode i).length = inputWidth i.component

/-- Every vector of a component's width is its well-formed input, encoded by that vector and no other (R32 to R34, R36). That any other
width is answered with the error wrongWidth is the model's reading of those widths (log 23): the rules name no refusal. -/
def Obligations.DecodesExactlyTheWidth : Prop :=
  ∀ (c : Component) (v : List Level),
    (v.length = inputWidth c → ∃ i, decode c v = .ok i ∧ i.wellFormed = true ∧ i.component = c ∧ encode i = v) ∧
    (v.length ≠ inputWidth c → decode c v = .error (.wrongWidth c (inputWidth c) v.length))

/-- R32 to R34: where each port's wires stand in the input vectors and in the output vectors. -/
def Obligations.FormatsOfTheVectors : Prop :=
  (∀ a b : Level, encode (.ha a b) = [b, a]) ∧
  (∀ a b k : Level, encode (.fa a b k) = [k, b, a]) ∧
  (∀ a b : List Level, a.length = wordWidth → b.length = wordWidth → ∀ i, i < wordWidth →
    (encode (.add32 a b))[i]? = some (busWire b i) ∧ (encode (.add32 a b))[wordWidth + i]? = some (busWire a i)) ∧
  (∀ sum carry : Level, (Outputs.halfAdder sum carry).vector = [sum, carry] ∧
    (Outputs.fullAdder sum carry).vector = [sum, carry]) ∧
  ∀ sum : List Level, (Outputs.adder sum).vector = sum

/-- R36. Every number of the component's width is a legal input vector of it, selects that component's operation and no other,
differs from every other, and completes. -/
def Obligations.EveryBitVectorIsLegal : Prop :=
  ∀ (c : Component) (n : Nat), n < 2 ^ inputWidth c →
    ∃ i, decodeBits c (inputWidth c) n = some i ∧ i.component = c ∧
      (∀ s : State, ∃ t, exec i s = .next t) ∧
      ∀ m, m < 2 ^ inputWidth c → decodeBits c (inputWidth c) m = some i → m = n

/-- A few vectors written out from the formats (R32 to R34) decode to the operation they stand for. A check of the decoder. Which
component a number alone is for, the decoder reads from its width: the model's choice (log 10), as R30 lets the driven component select
it. -/
def Obligations.WrittenVectorsDecode : Prop :=
  decodeTableWord 2 0b10 = some (.ha .one .zero) ∧ decodeTableWord 2 0b01 = some (.ha .zero .one) ∧
  decodeTableWord 3 0b101 = some (.fa .one .zero .one) ∧ decodeTableWord 3 0b110 = some (.fa .one .one .zero) ∧
  decodeTableWord 64 0x0000000500000003 = some (.add32 (busOf 0x00000005#32) (busOf 0x00000003#32)) ∧
  decodeTableWord 64 0xFFFFFFFC00000001 = some (.add32 (busOf 0xFFFFFFFC#32) (busOf 0x00000001#32))

/-! ### The fault (30_encoding.md R35, 60_exceptions.md) -/

/-- R35. An evaluation with an input wire that carries no bit faults with exactly the list of those wires, whatever the component
and the state. (For a bus list of other than W wires, no vector of R34, this is log 9.) -/
def Obligations.NonBinaryInputFaults : Prop :=
  ∀ (i : Instr) (s : State), (∃ w l, (w, l) ∈ inputWires i ∧ l.isBit = false) →
    ∃ ws, exec i s = .fault (.nonBinaryInput ws) ∧
      ∀ w, w ∈ ws ↔ ∃ l, (w, l) ∈ inputWires i ∧ l.isBit = false

/-- R53. An evaluation of bits raises nothing: it completes, for every operation and every state. (For a bus list of other than
W wires, no vector of R34, this is log 9.) -/
def Obligations.BitsRaiseNothing : Prop :=
  ∀ (i : Instr) (s : State), (∀ w l, (w, l) ∈ inputWires i → l.isBit = true) → ∃ t, exec i s = .next t

/-- R54. There is one fault reason. An evaluation raises it when an input wire is not a bit, and whatever the host does, a step marks
it for no other reason: it is then raised by the component that the pending action evaluates, with the vector on its input wires; it
names every wire of those that carries no bit, and gives no output. That a fault is a mark after which the run goes on, and no outcome
of a step, is the model's form (log 18). -/
def Obligations.StepFaultsOnlyForNonBits : Prop :=
  (∀ f : Fault, ∃ ws, f = .nonBinaryInput ws) ∧
  (∀ (i : Instr) (s : State), (∃ w l, (w, l) ∈ inputWires i ∧ l.isBit = false) → ∃ f, exec i s = .fault f) ∧
  (∀ s t : State, step s = .next t → t.faults = s.faults ∨
    ∃ n i ws, s.Evaluates n i ∧ ws ≠ [] ∧ (∀ w, w ∈ ws ↔ ∃ l, (w, l) ∈ inputWires i ∧ l.isBit = false) ∧
      t.faults = (n, .nonBinaryInput ws) :: s.faults ∧ t.sampled = none) ∧
  ∀ (s : State) (f : Fault), step s ≠ .fault f

/-- R35, R55. A stimulus line that evaluates a vector with an input wire that carries no bit is marked as faulted under its name,
gives no output, and leaves what the host has still to do; the mark is the model's form (log 18). -/
def Obligations.FaultedLineIsMarked : Prop :=
  ∀ (s : State) (l : Line) (rest : List Action) (i : Instr), s.actions = .stimulus l :: rest →
    l.call.check (shapes s.bench) = none → decode l.call.component (l.call.vector s.look) = .ok i →
    (∃ w v, (w, v) ∈ inputWires i ∧ v.isBit = false) →
    ∃ t ws, step s = .next t ∧ t.actions = rest ∧ t.sampled = none ∧ t.faults = (l.name, .nonBinaryInput ws) :: s.faults ∧
      ∀ w, w ∈ ws ↔ ∃ v, (w, v) ∈ inputWires i ∧ v.isBit = false

/-- R55. No step, and so no run, clears or changes a fault mark, whatever it evaluates: it keeps every mark there is and adds at most
one a step. The list of marks is the model's form of the mark (log 18). -/
def Obligations.FaultMarksAreNeverCleared : Prop :=
  (∀ s t : State, step s = .next t → ∃ more, t.faults = more ++ s.faults ∧ more.length ≤ 1) ∧
  ∀ (n : Nat) (s t : State), core.run n s = .next t → ∃ more, t.faults = more ++ s.faults ∧ more.length ≤ n

/-! ### Evaluation, instances and the host (10_state.md, 20_memory.md) -/

/-- The frame of every operation (R12, R14, R24, R27): an evaluation that completes samples outputs and lets time pass; the wiring,
what the host has still to do, the fault marks and the draws are as before. That it takes exactly the settle time is the model's
choice (log 5): the spec lets the host wait longer. -/
def Obligations.EvaluationFrame : Prop :=
  ∀ (i : Instr) (s t : State), exec i s = .next t →
    t.bench = s.bench ∧ t.actions = s.actions ∧ t.faults = s.faults ∧ t.draws = s.draws ∧
    t.now = s.now + Config.tSettle i.component ∧
    ∃ o, t.sampled = some o ∧ ruleResult i = .outputs o ∧ o.component = i.component ∧ o.wellFormed = true

/-- R20. What an evaluation gives depends on its input values alone: not on the state, so on no earlier evaluation. -/
def Obligations.OutputsDependOnInputsAlone : Prop :=
  ∀ (i : Instr) (s s' : State),
    (∃ t t', exec i s = .next t ∧ exec i s' = .next t' ∧ t.sampled = t'.sampled) ∨
    (∃ f, exec i s = .fault f ∧ exec i s' = .fault f)

/-- R27. Evaluating the same inputs again gives the same outputs and changes nothing but the time. -/
def Obligations.EvaluationIsIdempotent : Prop :=
  ∀ (i : Instr) (s t : State), exec i s = .next t →
    ∃ u, exec i t = .next u ∧ u.sampled = t.sampled ∧ u = { t with now := u.now }

/-- R23. A step that evaluates, powers up or samples the component named n, faulted or not, leaves what any other component settles to
as it was; a step that drives n, or changes one of its inputs, so leaves every component that is not wired to n, directly or through
others. Which component a name means is the model's choice where the name is used again (log 15, log 25), and so is the form of the
change of one input (log 26). -/
def Obligations.InstancesAreIndependent : Prop :=
  ∀ (s t : State) (act : Action) (rest : List Action) (n m : Name), s.actions = act :: rest → step s = .next t → m ≠ n →
    ((∃ call, act = .stimulus { name := n, call := call }) ∨ (∃ c, act = .powerUp n c) ∨ act = .sample n →
      t.output m = s.output m) ∧
    ((∃ c v, act = .drive n c v) ∨ (∃ p x, act = .change n p x) →
      lookupName m (dependents n s.bench) ≠ some true → t.output m = s.output m)

/-- R23. The outcome of a line does not depend on another line's evaluation, a faulted one included, unless it is wired to it: run
after that one it gives the same sample and the same fault mark, if any, as run without it. (What it refers to settles: an unsettled
wire carries fresh draws, log 17.) -/
def Obligations.EvaluationsAreIndependent : Prop :=
  ∀ (s t u : State) (first second : Line) (rest : List Action), s.actions = .stimulus first :: .stimulus second :: rest →
    second.call.refersTo first.name = false → second.call.steady s.look = true → step s = .next t →
    step { s with actions := .stimulus second :: rest } = .next u →
    ∃ v marks, step t = .next v ∧ v.sampled = u.sampled ∧ v.actions = u.actions ∧
      u.faults = marks ++ s.faults ∧ v.faults = marks ++ t.faults

/-- R37. A stimulus line whose operands are bound, fit their ports, settle and carry bits completes: it samples its rule's outputs once
what it refers to has settled, and binds its name to them. -/
def Obligations.StimulusLineCompletes : Prop :=
  ∀ (s : State) (l : Line) (rest : List Action) (i : Instr), s.actions = .stimulus l :: rest →
    l.call.check (shapes s.bench) = none → l.call.steady s.look = true →
    decode l.call.component (l.call.vector s.look) = .ok i → AllBits i →
    ∃ t o, step s = .next t ∧ t.actions = rest ∧ t.faults = s.faults ∧ ruleResult i = .outputs o ∧ t.sampled = some o ∧
      t.output l.name = some o

/-- R63, R65, R35. A line wired to a component that does not settle goes on, and settles to nothing: its inputs are not held, so where
the levels on its wires are bits its sample is of free draws, and where one is none it samples nothing and its fault is marked. Which
draws the sample and its wires are, is the model's form of "any value" (log 6, log 17); that the fault is one mark and the run goes on is
log 18, and the order of the wires it lists is log 8. The levels on wires that do not settle are draws, of which nothing is known: a
literal that is no bit beside one shows the second branch, and no state can be shown to be in the first. -/
def Obligations.LineOnUnsettledWires : Prop :=
  ∀ (s : State) (l : Line) (rest : List Action) (i : Instr), s.actions = .stimulus l :: rest →
    l.call.check (shapes s.bench) = none → l.call.steady s.look = false →
    decode l.call.component (l.call.vector s.look) = .ok i →
    ∃ t, step s = .next t ∧ t.actions = rest ∧ t.output l.name = none ∧
      (AllBits i → t.faults = s.faults ∧ t.sampled =
        some (drawnOutputs (s.draws + drawsFor s.bench.length + drawsFor s.bench.length) l.call.component)) ∧
      (¬ AllBits i → t.faults = (l.name, .nonBinaryInput (nonBitWires i)) :: s.faults ∧ t.sampled = none)

/-- R37, R7, R8. What each operand form reads: a literal its own wires; `n.sum`, `n.carry` and `n.sum[i]` that port, or that wire of
it, of what the component bound to n settles to; `NOT(x)` the inverse of each bit; `{x, y}` the wires of y below those of x. -/
def Obligations.OperandsReadTheirWires : Prop :=
  ∀ s : State,
    (∀ ls, (Operand.lit ls).levels s.look = ls) ∧
    (∀ n sum carry, s.output n = some (.halfAdder sum carry) ∨ s.output n = some (.fullAdder sum carry) →
      (Operand.sum n).levels s.look = [sum] ∧ (Operand.carry n).levels s.look = [carry] ∧
      (Operand.sumBit n 0).levels s.look = [sum]) ∧
    (∀ n sum, s.output n = some (.adder sum) → (Operand.sum n).levels s.look = sum ∧
      ∀ i, i < wordWidth → ∃ l, sum[i]? = some l ∧ (Operand.sumBit n i).levels s.look = [l]) ∧
    (∀ (x : Operand) (bs : List Bool), x.levels s.look = bs.map Level.ofBit →
      (Operand.inv x).levels s.look = bs.map fun b => Level.ofBit !b) ∧
    ∀ x y, (Operand.cat x y).levels s.look = y.levels s.look ++ x.levels s.look

/-- R37, R32 to R34. The operands of a line stand in the order of its ports: the input vector of a line decodes to the operation with
their levels on `a`, `b` and `carryIn`. -/
def Obligations.LinePresentsItsOperands : Prop :=
  ∀ (s : State) (a b k : Operand) (p q r : Level),
    (a.levels s.look = [p] → b.levels s.look = [q] →
      decode .halfAdder ((Call.ha a b).vector s.look) = .ok (.ha p q) ∧
      (k.levels s.look = [r] → decode .fullAdder ((Call.fa a b k).vector s.look) = .ok (.fa p q r))) ∧
    ((a.levels s.look).length = wordWidth → (b.levels s.look).length = wordWidth →
      decode .rippleCarryAdder32 ((Call.add32 a b).vector s.look) = .ok (.add32 (a.levels s.look) (b.levels s.look)))

/-- A line that is not refused always gives a vector of its component's width (R36, R37). Which lines are refused is log 23. -/
def Obligations.CheckedLineDecodes : Prop :=
  ∀ (s : State) (l : Line), l.call.check (shapes s.bench) = none →
    ∃ i, decode l.call.component (l.call.vector s.look) = .ok i ∧ i.wellFormed = true

/-- R37. A line with a reference to a name that is not bound is refused, whatever its component and the form of its operands. What the
refusal is called is the model's choice (log 12): where the check of the line finds n unbound, laterBinding n if the line itself
(a loop, R67) or a later action binds n, and else unknownBinding n. The check finds n unbound where the first operand in the order
of the ports that has no meaning reads `n.sum`, `n.carry` or `n.sum[i]`, directly, inverted or within a concatenation. -/
def Obligations.UnboundReferenceRefused : Prop :=
  ∀ (s : State) (l : Line) (rest : List Action) (n : Name) (named : Refusal), s.actions = .stimulus l :: rest →
    named = (if l.name = n ∨ rest.any (Action.binds n) = true then .laterBinding n else .unknownBinding n) →
    (l.call.refersTo n = true → lookupName n (shapes s.bench) = none → ∃ r, step s = .refused r) ∧
    (l.call.check (shapes s.bench) = some (.unknownBinding n) →
      step s = .refused named ∧ l.call.refersTo n = true ∧ lookupName n (shapes s.bench) = none) ∧
    ∀ before p w y after x, l.call.ports = before ++ (p, w, y) :: after →
      (∀ q ∈ before, q.2.2.check (shapes s.bench) = none ∧ q.2.2.width (shapes s.bench) = q.2.1) →
      lookupName n (shapes s.bench) = none → (x = .sum n ∨ x = .carry n ∨ ∃ i, x = .sumBit n i) →
      (y = x ∨ y = .inv x ∨ (∃ z, y = .cat x z) ∨ ∃ z, y = .cat z x ∧ z.check (shapes s.bench) = none) →
      step s = .refused named

/-- R28, R65. In every bench, a driven component is ready from exactly a settle time after the last of these: its own last change, and
the time from which each thing it is wired to is ready, re-driven or not. So the downstream output is valid once both have settled in
turn, and the time to wait is the sum along the wires (log 24). A stimulus line adds its component to the bench, changed when what it
refers to is ready (that it waits just so long is the model's choice, log 5) and ready a settle time later. -/
def Obligations.DownstreamSettlesAfterUpstream : Prop :=
  ∀ s : State,
    (∀ newer x older call e, s.bench = newer ++ x :: older → x.source = .driven call →
      s.look[newer.length]? = some (x.name, e) →
      x.changedAt + Config.tSettle call.component ≤ e.readyAt ∧
      (∀ n d, call.refersTo n = true → lookupName n (s.look.drop (newer.length + 1)) = some d →
        d.readyAt + Config.tSettle call.component ≤ e.readyAt) ∧
      ∀ t, x.changedAt + Config.tSettle call.component ≤ t →
        (∀ n d, call.refersTo n = true → lookupName n (s.look.drop (newer.length + 1)) = some d →
          d.readyAt + Config.tSettle call.component ≤ t) → e.readyAt ≤ t) ∧
    ∀ l : Line,
      (s.place l).bench =
        { name := l.name, source := .driven l.call, changedAt := (s.place l).now, settledOnce := false } :: s.bench ∧
      s.now ≤ (s.place l).now ∧
      ∀ e, lookupName l.name (s.place l).look = some e →
        e.readyAt = (s.place l).now + Config.tSettle l.call.component ∧
        ∀ n d, l.call.refersTo n = true → lookupName n s.look = some d → d.readyAt ≤ (s.place l).now

/-- R28, R65, R66. When the host changes what drives n, with a whole vector or on one input, a component that is wired to n settles
anew behind it: it is ready no earlier than the settle time of n and its own after the change (log 24), so that a sample of it before
that is drawn. What counts as a change is the model's choice (log 15, log 26). -/
def Obligations.RedrivingUnsettlesDownstream : Prop :=
  ∀ (s : State) (n : Name) (c : Component) (rest : List Action),
    (∀ v i, s.actions = .drive n c v :: rest → decode c v = .ok i →
      lookupName n (s.bench.map fun x => (x.name, x.source)) ≠ some (.driven (Call.ofInstr i)) →
      ∃ t, step s = .next t ∧ t.ReadyBehind n (s.now + Config.tSettle c)) ∧
    ∀ p x t, s.actions = .change n p x :: rest → step s = .next t → lookupName n (shapes s.bench) = some c →
      lookupName n (t.bench.map fun x => (x.name, x.source)) ≠ lookupName n (s.bench.map fun x => (x.name, x.source)) →
      t.ReadyBehind n (s.now + Config.tSettle c)

/-- R28, R63. A line's wires settle exactly where everything it refers to settles to outputs. That a line does not settle where
something it refers to does not, be it for an input that is no bit, is the model's choice (log 17). -/
def Obligations.LineSettlesWithItsReferences : Prop :=
  ∀ (s : State) (l : Line),
    l.call.steady s.look = true ↔ ∀ n, l.call.refersTo n = true → ∃ o, s.output n = some o

/-- R37, R16 to R18, R36. A line goes on exactly where it fits: every operand refers to components bound before it, to a port and a
bit that they have, and is as wide as the port it stands on; any other line is refused, and only such a line passes the check that
other statements take as a hypothesis. -/
def Obligations.LineGoesOnExactlyWhenItFits : Prop :=
  ∀ (s : State) (l : Line),
    (l.call.check (shapes s.bench) = none ↔ l.call.Fits (shapes s.bench)) ∧
    ∀ rest, s.actions = .stimulus l :: rest →
      (l.call.Fits (shapes s.bench) → ∃ t, step s = .next t ∧ t.actions = rest) ∧
      (¬ l.call.Fits (shapes s.bench) → ∃ r, step s = .refused r)

/-- R16 to R18, R46, R36. What does not fit is refused by name (the names are log 23): where the operands of the ports before it fit,
an operand that reads the carry of a ripple adder, which has no such port; a bit of `sum` beyond its width; or that has not the width
of its port. A sample of a name that nothing is instantiated for is refused too, and one of any other name goes on. -/
def Obligations.MisfitsAreRefusedByName : Prop :=
  (∀ (s : State) (l : Line) (rest : List Action) (before after : List (Port × Nat × Operand)) (p : Port) (w : Nat) (y : Operand),
    s.actions = .stimulus l :: rest → l.call.ports = before ++ (p, w, y) :: after →
    (∀ q ∈ before, q.2.2.Fits (shapes s.bench) q.2.1) →
    (∀ u, y.Fits (shapes s.bench) u → u ≠ w → step s = .refused (.operandWidth p w u)) ∧
    ∀ x, (y = x ∨ y = .inv x ∨ (∃ z, y = .cat x z) ∨ ∃ z u, y = .cat z x ∧ z.Fits (shapes s.bench) u) →
      (∀ n, x = .carry n → lookupName n (shapes s.bench) = some .rippleCarryAdder32 → step s = .refused (.noSuchPort n)) ∧
      ∀ n i c, x = .sumBit n i → lookupName n (shapes s.bench) = some c → sumWidth c ≤ i →
        step s = .refused (.noSuchBit n i)) ∧
  ∀ (s : State) (n : Name) (rest : List Action), s.actions = .sample n :: rest →
    (lookupName n (shapes s.bench) = none → step s = .refused (.noSuchInstance n)) ∧
    (lookupName n (shapes s.bench) ≠ none → ∃ t, step s = .next t ∧ t.actions = rest ∧ t.bench = s.bench ∧ t.now = s.now)

/-- A step runs the decoded operation (R21): where the pending line's operands have a meaning and give a vector that decodes to i, the
step is i's evaluation in the state with the action taken and the component placed, its fault marked under the line's name, and its
sample drawn anew where a wire of it does not settle. The placing is log 1, the mark log 18 and the draw log 17, the model's form. -/
def Obligations.StepRunsDecodedLine : Prop :=
  ∀ (s : State) (l : Line) (rest : List Action) (i : Instr) (p : State), s.actions = .stimulus l :: rest →
    l.call.check (shapes s.bench) = none → decode l.call.component (l.call.vector s.look) = .ok i →
    p = State.place { s with actions := rest } l →
    (l.call.steady s.look = true → step s = p.noteFault l.name (exec i p)) ∧
    (l.call.steady s.look = false → step s = match exec i p with
      | .next t => .next (t.sampleDrawn s.bench.length l.call.component)
      | o => p.noteFault l.name o)

/-- The operation that a word decodes to is what the next step runs once the word is placed. Placing a word as a line named dut (log 1)
and reading a number without its component by its width (log 10) are the model's own. -/
def Obligations.StepRunsFetchedWord : Prop :=
  ∀ (s : State) (nbits w : Nat) (i : Instr) (p : State), decodeTableWord nbits w = some i →
    p = s.place (Line.ofInstr fetchName i) → step (s.withFetchWord nbits w) = p.noteFault fetchName (exec i p)

/-- With nothing pending a step changes nothing (the model's choice, log 19). -/
def Obligations.IdleStepChangesNothing : Prop := ∀ s : State, s.actions = [] → step s = .next s

/-- R64, R65: holding changes the time and nothing else, and so nothing that anything settles to; powering a component up adds it. That
a power-up under a name in use adds another component too, and leaves the older one as it is, is the model's choice (log 25). -/
def Obligations.HoldAndPowerUp : Prop :=
  ∀ (s : State) (rest : List Action),
    (∀ d, s.actions = .hold d :: rest → step s = .next { s with actions := rest, now := s.now + d }) ∧
    ∀ n c, s.actions = .powerUp n c :: rest → step s = .next
      { s with
        actions := rest
        bench := { name := n, source := .powerUp c, changedAt := s.now, settledOnce := false } :: s.bench }

/-- Driving a vector is refused exactly when it has not the component's width (R36; that the refusal is named undecodable is log 23), and
otherwise changes what drives the component and when, and, in the instances already there, what they remember of having settled
(settledOnce, log 16: SettlingIsRemembered says how, and this statement leaves it open). The name then settles to the rule's outputs,
and to nothing where the rule gives none. Every other instance keeps its place, name, source and time of change; the newest of the
name keeps them too where the same levels drive it already, and else is driven by the new levels from now on; where the name is of no
component of this kind, one is added. That the host drives a whole vector, which component a name is, and what counts as a change, is
the model's form of R22 (log 15). -/
def Obligations.DriveChecksTheWidth : Prop :=
  ∀ (s : State) (n : Name) (c : Component) (v : List Level) (rest : List Action), s.actions = .drive n c v :: rest →
    (v.length ≠ inputWidth c → step s = .refused (.undecodable (.wrongWidth c (inputWidth c) v.length))) ∧
    (v.length = inputWidth c → ∃ t i, step s = .next t ∧ t.actions = rest ∧ t.now = s.now ∧ t.sampled = s.sampled ∧
      t.faults = s.faults ∧ t.draws = s.draws ∧ decode c v = .ok i ∧
      (∀ o, ruleResult i = .outputs o → t.output n = some o) ∧ (∀ ws, ruleResult i = .nonBits ws → t.output n = none) ∧
      (∀ newer x older, s.bench = newer ++ x :: older → x.name = n → (∀ y ∈ newer, y.name ≠ n) → x.component = c →
        (t.bench.map fun y => (y.name, y.source, y.changedAt)) =
          (newer.map fun y => (y.name, y.source, y.changedAt)) ++
          (n, .driven (Call.ofInstr i), if x.source = .driven (Call.ofInstr i) then x.changedAt else s.now) ::
          (older.map fun y => (y.name, y.source, y.changedAt))) ∧
      (lookupName n (shapes s.bench) ≠ some c → t.bench =
        { name := n, source := .driven (Call.ofInstr i), changedAt := s.now, settledOnce := false } :: s.bench))

/-- R22, R66. At any time the host can change one input of a component, and what is on its other inputs stays as it is, wires from other
components included. The changed port carries the new operand from now on, which is a change of the component's inputs unless the same
operand is there already; every other instance keeps its place, name, source and time of change; no time passes and nothing is sampled.
On a component that nothing drove yet the other inputs stay undriven (R6, R63). What the instances remember of having settled is
SettlingIsRemembered's. That the operand is any form of a line's, read among the components older than this one, and what counts as a
change, is the model's form (log 15, log 26). -/
def Obligations.ChangingOneInputKeepsTheOthers : Prop :=
  ∀ (s : State) (n : Name) (p : Port) (x old : Operand) (w : Nat) (rest : List Action) (newer older : List Instance) (y : Instance)
    (before after : List (Port × Nat × Operand)),
    s.actions = .change n p x :: rest → s.bench = newer ++ y :: older → y.name = n → (∀ z ∈ newer, z.name ≠ n) →
    y.source.call.ports = before ++ (p, w, old) :: after → x.Fits (shapes older) w →
    (∀ z ∈ newer ++ [y], x.refersTo z.name = false) →
    ∃ t call, step s = .next t ∧ t.actions = rest ∧ t.now = s.now ∧ t.sampled = s.sampled ∧ t.faults = s.faults ∧
      t.draws = s.draws ∧ call.component = y.component ∧ call.ports = before ++ (p, w, x) :: after ∧
      (t.bench.map fun z => (z.name, z.source, z.changedAt)) =
        (newer.map fun z => (z.name, z.source, z.changedAt)) ++
        (n, .driven call, if y.source = .driven call then y.changedAt else s.now) ::
        (older.map fun z => (z.name, z.source, z.changedAt)) ∧
      ∀ c, y.source = .powerUp c → ∀ q ∈ before ++ after, q.2.2 = .lit (List.replicate q.2.1 .undriven)

/-- R16 to R18, R36, R37, R67. A change of one input is refused where its operand has no place there: no component has the name; the
component has no such port (only a full adder has a carryIn); the operand refers to the component itself or to a newer one, which every
loop does; it refers to a name that is not bound; or it has not the width of the port. The names of the refusals, and that every
reference to a newer component is refused, is the model's choice (log 12, log 23, log 26). -/
def Obligations.MisfittingChangesAreRefused : Prop :=
  ∀ (s : State) (n : Name) (p : Port) (x : Operand) (rest : List Action), s.actions = .change n p x :: rest →
    (lookupName n (shapes s.bench) = none → step s = .refused (.noSuchInstance n)) ∧
    ∀ newer y older, s.bench = newer ++ y :: older → y.name = n → (∀ z ∈ newer, z.name ≠ n) →
      (p = .carryIn → y.component ≠ .fullAdder → step s = .refused (.noSuchInput n p)) ∧
      ∀ w old, (p, w, old) ∈ y.source.call.ports →
        ((∃ z ∈ newer ++ [y], x.refersTo z.name = true) →
          ∃ z ∈ newer ++ [y], x.refersTo z.name = true ∧ step s = .refused (.laterBinding z.name)) ∧
        ((∀ z ∈ newer ++ [y], x.refersTo z.name = false) →
          (∀ u, x.Fits (shapes older) u → u ≠ w → step s = .refused (.operandWidth p w u)) ∧
          (¬ x.Fits (shapes older) w → ∃ r, step s = .refused r) ∧
          ∀ m, (x = .sum m ∨ x = .carry m ∨ ∃ i, x = .sumBit m i) → lookupName m (shapes older) = none →
            step s = .refused (if rest.any (Action.binds m) = true then .laterBinding m else .unknownBinding m))

/-! ### Settling and power-up (70_reset_and_hazards.md) -/

/-- R65, R35, R21. Sampled once its inputs are steady and it is ready, a component gives what its rule gives, a fault included;
sampled before, every output bit is a fresh free draw and the draws used are counted. Nothing else changes. The draws are the
model's form of "any value" (log 6). Between R63's any value and R35's fault, the model takes the fault only of a component that has
settled once since power-up (log 16), and marks it (log 18); and behind a wire that does not settle it takes a draw whenever the sample
comes, never the fault, also of a component that has settled once (log 17). -/
def Obligations.SampleBeforeAndAfterSettling : Prop :=
  ∀ (s : State) (n : Name) (rest : List Action) (newer older : List Instance) (x : Instance) (d : Node),
    s.actions = .sample n :: rest → s.bench = newer ++ x :: older → x.name = n → (∀ y ∈ newer, y.name ≠ n) →
    lookupName n s.look = some d →
    (∀ o, d.steady = true → d.readyAt ≤ s.now → d.result = .outputs o →
      step s = .next { s with actions := rest, sampled := some o }) ∧
    (∀ ws, d.steady = true → d.readyAt ≤ s.now → d.result = .nonBits ws → x.settledOnce = true →
      step s = .next { s with actions := rest, sampled := none, faults := (n, .nonBinaryInput ws) :: s.faults }) ∧
    (d.steady = false ∨ s.now < d.readyAt ∨ ((∃ ws, d.result = .nonBits ws) ∧ x.settledOnce = false) →
      step s = .next
        { s with
          actions := rest
          sampled := some (drawnOutputs (s.draws + drawsFor older.length) x.component)
          draws := s.draws + drawsFor s.bench.length })

/-- R63. A component that has not settled since power-up, and some input of which is not driven with a bit, gives free draws whenever
it is sampled, however long it is held, and its output wires carry free draws; so does one that nothing drives at all. Which draws
those are is the model's form of "any value" (log 6, log 16, log 17). -/
def Obligations.PowerUpSampleIsDrawn : Prop :=
  ∀ (s : State) (n : Name) (newer older : List Instance) (x : Instance) (drawn : Outputs),
    s.bench = newer ++ x :: older → x.name = n → (∀ y ∈ newer, y.name ≠ n) → x.settledOnce = false →
    (∃ c, x.source = .powerUp c) ∨ ¬ AllBits (x.inputs (nodes s.draws older)) →
    drawn = drawnOutputs (s.draws + drawsFor older.length) x.component →
    (∀ rest, s.actions = .sample n :: rest → step s = .next
      { s with actions := rest, sampled := some drawn, draws := s.draws + drawsFor s.bench.length }) ∧
    (Operand.sum n).levels s.look = drawn.sumWires ∧ (Operand.carry n).levels s.look = drawn.carryWires ∧
    s.output n = none

/-- R63. When the host changes what drives a component, with a whole vector or on one input, each component remembers whether it has
settled since power-up: whether it had before, or every input it is wired to is steady, carries a bit and has been held for its settle
time by then. The memory is the model's form of the rule's "until" (log 16), and so are the two forms of the change (log 15, log 26). -/
def Obligations.SettlingIsRemembered : Prop :=
  ∀ (s : State) (n : Name) (rest : List Action) (act : Action), s.actions = act :: rest →
    ((∃ c v, act = .drive n c v ∧ v.length = inputWidth c ∧ lookupName n (shapes s.bench) = some c) → ∃ t, step s = .next t) ∧
    ∀ t, step s = .next t →
      ((∃ c v, act = .drive n c v ∧ lookupName n (shapes s.bench) = some c) ∨ ∃ p x, act = .change n p x) →
      t.bench.length = s.bench.length ∧
      ∀ newer x older d, s.bench = newer ++ x :: older → d = x.node s.draws (nodes s.draws older) →
        ∃ y, t.bench[newer.length]? = some y ∧ y.name = x.name ∧
          (y.settledOnce = true ↔
            x.settledOnce = true ∨ (d.steady = true ∧ (∃ o, d.result = .outputs o) ∧ d.readyAt ≤ s.now))

/-- R66. A change of a component's inputs starts its settle time anew, whatever it was doing: its outputs are then those of the new
vector, and are so from a settle time after the change on. That this is so too where a wire is replaced by the same level, and that a
name of another kind or of none is instantiated, is the model's choice (log 15). -/
def Obligations.InputChangeRestartsSettling : Prop :=
  ∀ (s : State) (n : Name) (c : Component) (v : List Level) (rest : List Action) (i : Instr),
    s.actions = .drive n c v :: rest → decode c v = .ok i →
    lookupName n (s.bench.map fun x => (x.name, x.source)) ≠ some (.driven (Call.ofInstr i)) →
    ∃ t d, step s = .next t ∧ lookupName n t.look = some d ∧ d.steady = true ∧
      d.readyAt = s.now + Config.tSettle c ∧ d.result = ruleResult i

/-- R21, R22. Driving a component, holding its inputs for its settle time and sampling it gives the outputs of its evaluation,
whatever the bench held before, faults included. Which component a name means, and that the run goes on behind fault marks, is the
model's form (log 15, log 18). -/
def Obligations.DriveHoldSampleIsAnEvaluation : Prop :=
  ∀ (s : State) (n : Name) (c : Component) (v : List Level) (d : Nat) (rest : List Action) (i : Instr), s.Inv →
    s.actions = .drive n c v :: .hold d :: .sample n :: rest → Config.tSettle c ≤ d → decode c v = .ok i → AllBits i →
    ∃ t u, core.run 3 s = .next t ∧ exec i s = .next u ∧ t.sampled = u.sampled ∧ t.actions = rest ∧ t.faults = s.faults

/-- R21, R22. Changing one input of a wired component, once what it is then wired to has settled, holding it for its settle time and
sampling it gives the outputs of the evaluation of the vector now on its wires. The form of the change is the model's (log 26). -/
def Obligations.ChangeHoldSampleIsAnEvaluation : Prop :=
  ∀ (s : State) (n : Name) (p : Port) (x : Operand) (d : Nat) (rest : List Action) (newer older : List Instance) (y : Instance)
    (call : Call) (i : Instr), s.Inv →
    s.actions = .change n p x :: .hold d :: .sample n :: rest → s.bench = newer ++ y :: older → y.name = n →
    (∀ z ∈ newer, z.name ≠ n) → y.source.call.setPort p x = some call → x.Fits (shapes older) (portWidth y.component) →
    (∀ z ∈ newer ++ [y], x.refersTo z.name = false) →
    call.steady (nodes s.draws older) = true → call.readyAt (nodes s.draws older) ≤ s.now → Config.tSettle call.component ≤ d →
    decode call.component (call.vector (nodes s.draws older)) = .ok i → AllBits i →
    ∃ t u, core.run 3 s = .next t ∧ exec i s = .next u ∧ t.sampled = u.sampled ∧ t.actions = rest ∧ t.faults = s.faults

/-- R35. A component that has settled on bits, and is then driven with a vector some wire of which carries no bit and held, faults when
it is sampled: the mark lists exactly those wires and nothing is sampled. That the fault comes at the sample is the model's choice
(log 16), and the mark is its form (log 18). -/
def Obligations.SettledComponentFaultsOnNonBits : Prop :=
  ∀ (s : State) (n : Name) (c : Component) (v v' : List Level) (d d' : Nat) (rest : List Action) (i j : Instr), s.Inv →
    s.actions = .drive n c v :: .hold d :: .drive n c v' :: .hold d' :: .sample n :: rest →
    Config.tSettle c ≤ d → Config.tSettle c ≤ d' → decode c v = .ok i → AllBits i → decode c v' = .ok j → ¬ AllBits j →
    ∃ t ws, core.run 5 s = .next t ∧ t.sampled = none ∧ t.faults = (n, .nonBinaryInput ws) :: s.faults ∧ t.actions = rest ∧
      ∀ w, w ∈ ws ↔ ∃ l, (w, l) ∈ inputWires j ∧ l.isBit = false

/-- Every step keeps the invariant: the wiring stays a netlist without loops (R67) and of the ports' widths, no input has changed in
the future, a component that nothing drives has not settled (R63), and what was sampled is as wide as its port (R46). -/
def Obligations.StepKeepsTheNetlist : Prop :=
  ∀ s t : State, s.Inv → step s = .next t → t.Inv

/-- The state after reset meets the invariant; nothing is instantiated, driven, sampled or marked (R62; the values are the model's,
log 2). -/
def Obligations.ResetMeetsTheNetlist : Prop :=
  State.reset.Inv ∧ State.reset.bench = [] ∧ State.reset.sampled = none ∧ State.reset.actions = [] ∧ State.reset.Unmarked

/-! ### Notation (00_scope.md) -/

/-- R10. A rendering has exactly W characters, each 0 or 1, the most significant bit first, and reads back as the unsigned value. -/
def Obligations.RenderingReadsBack : Prop :=
  (∀ (w : Nat) (x : BitVec w), (render x).length = w ∧ numeral (render x) = uval x ∧
    (∀ ch ∈ render x, ch = '0' ∨ ch = '1') ∧
    ∀ k, k < w → (render x)[k]? = some (if x.getLsbD (w - 1 - k) then '1' else '0')) ∧
  ∀ (w : Nat) (x y : Int), toBitString w x = render (enc w x) ∧ addText w x y = render (rippleSum (enc w x) (enc w y))

/-- R9. The unsigned and signed readings lie in their ranges and differ by the weight of the top bit, and enc_W(n) is the one bus
whose unsigned value is n mod 2^W. -/
def Obligations.IntegerReadings : Prop :=
  ∀ (w : Nat) (x : BitVec w), 0 < w →
    uval x = ((List.range w).map fun i => (x.getLsbD i).toNat * 2 ^ i).sum ∧ uval x < 2 ^ w ∧
    sval x = uval x - (x.getLsbD (w - 1)).toNat * 2 ^ w ∧ -2 ^ (w - 1) ≤ sval x ∧ sval x < 2 ^ (w - 1) ∧
    (∀ n : Int, (uval (enc w n) : Int) = n % 2 ^ w) ∧ (∀ n : Int, (uval x : Int) = n % 2 ^ w → x = enc w n) ∧
    enc 32 (-1) = 0xFFFFFFFF#32 ∧ enc 32 5 = 0x00000005#32
end

