-- ==== Sys2Proof/Laws/Bits.lean ====
section
/-! SUPPORT. Buses: their bits, their widths and their unsigned value. -/

namespace Sys2Proof.Machine

variable {w : Nat}

@[simp] theorem isBit_ofBit (b : Bool) : (Level.ofBit b).isBit = true := by cases b <;> rfl
@[simp] theorem isOne_ofBit (b : Bool) : (Level.ofBit b).isOne = b := by cases b <;> rfl

theorem ofBit_isOne {l : Level} (h : l.isBit = true) : Level.ofBit l.isOne = l := by
  cases l <;> first | rfl | exact absurd h (by decide)

theorem getLsbD_bitsOf (f : Nat → Bool) (i : Nat) : (bitsOf f w).getLsbD i = (decide (i < w) && f i) := by
  induction w with
  | zero => simp [bitsOf]
  | succ w ih =>
    rw [bitsOf, BitVec.getLsbD_cons, ih]
    split
    · subst_vars; simp
    · rename_i h
      have : i < w + 1 ↔ i < w := by omega
      simp [this]

theorem getLsbD_bitsOf_of_lt (f : Nat → Bool) {i : Nat} (h : i < w) : (bitsOf f w).getLsbD i = f i := by
  rw [getLsbD_bitsOf, decide_eq_true h, Bool.true_and]

@[simp] theorem length_busOf (x : BitVec w) : (busOf x).length = w := by simp [busOf]

@[simp] theorem busWire_busOf (x : BitVec w) {i : Nat} (h : i < w) : busWire (busOf x) i = Level.ofBit (x.getLsbD i) := by
  simp [busWire, busOf, List.getD, h]

theorem getLsbD_busBits (x : List Level) {i : Nat} (h : i < wordWidth) :
    (busBits x).getLsbD i = (busWire x i).isOne := getLsbD_bitsOf_of_lt _ h

@[simp] theorem busBits_busOf (x : Word) : busBits (busOf x) = x := by
  apply BitVec.eq_of_getLsbD_eq
  intro i hi
  rw [getLsbD_busBits _ hi, busWire_busOf _ hi, isOne_ofBit]

theorem sum_bits (n i : Nat) : ((List.range i).map fun k => (n.testBit k).toNat * 2 ^ k).sum = n % 2 ^ i := by
  induction i with
  | zero => simp [Nat.mod_one]
  | succ i ih =>
    rw [List.range_succ, List.map_append, List.sum_append, ih, Nat.mod_pow_succ]
    simp [Nat.toNat_testBit, Nat.mul_comm]

theorem uval_eq_toNat (x : BitVec w) : uval x = x.toNat := by
  have := sum_bits x.toNat w
  rw [Nat.mod_eq_of_lt x.isLt] at this
  exact this

end Sys2Proof.Machine
end

