-- ==== Sys2Proof/Laws/State.lean ====
section
/-! SUPPORT. The fields of a state after each update, so that no proof unfolds a record update. -/

namespace Sys2Proof.Machine

variable (s : State)

@[simp] theorem State.place_actions (l : Line) : (s.place l).actions = s.actions := rfl
@[simp] theorem State.place_bench (l : Line) :
    (s.place l).bench =
      { name := l.name, source := .driven l.call, changedAt := (s.place l).now, settledOnce := false } :: s.bench := rfl
@[simp] theorem State.place_now (l : Line) : (s.place l).now = max s.now (l.call.readyAt s.look) := rfl
@[simp] theorem State.place_sampled (l : Line) : (s.place l).sampled = s.sampled := rfl
@[simp] theorem State.place_faults (l : Line) : (s.place l).faults = s.faults := rfl
@[simp] theorem State.place_draws (l : Line) : (s.place l).draws = s.draws + drawsFor s.bench.length := rfl

@[simp] theorem State.sampleDrawn_actions (k : Nat) (c : Component) : (s.sampleDrawn k c).actions = s.actions := rfl
@[simp] theorem State.sampleDrawn_bench (k : Nat) (c : Component) : (s.sampleDrawn k c).bench = s.bench := rfl
@[simp] theorem State.sampleDrawn_now (k : Nat) (c : Component) : (s.sampleDrawn k c).now = s.now := rfl
@[simp] theorem State.sampleDrawn_sampled (k : Nat) (c : Component) :
    (s.sampleDrawn k c).sampled = some (drawnOutputs (s.draws + drawsFor k) c) := rfl
@[simp] theorem State.sampleDrawn_faults (k : Nat) (c : Component) : (s.sampleDrawn k c).faults = s.faults := rfl
@[simp] theorem State.sampleDrawn_draws (k : Nat) (c : Component) :
    (s.sampleDrawn k c).draws = s.draws + drawsFor s.bench.length := rfl

@[simp] theorem State.powerUp_actions (n : Name) (c : Component) : (s.powerUp n c).actions = s.actions := rfl
@[simp] theorem State.powerUp_bench (n : Name) (c : Component) :
    (s.powerUp n c).bench = { name := n, source := .powerUp c, changedAt := s.now, settledOnce := false } :: s.bench := rfl
@[simp] theorem State.powerUp_now (n : Name) (c : Component) : (s.powerUp n c).now = s.now := rfl
@[simp] theorem State.powerUp_sampled (n : Name) (c : Component) : (s.powerUp n c).sampled = s.sampled := rfl
@[simp] theorem State.powerUp_faults (n : Name) (c : Component) : (s.powerUp n c).faults = s.faults := rfl
@[simp] theorem State.powerUp_draws (n : Name) (c : Component) : (s.powerUp n c).draws = s.draws := rfl

@[simp] theorem State.rewire_actions (n : Name) (call : Call) : (s.rewire n call).actions = s.actions := rfl
@[simp] theorem State.rewire_bench (n : Name) (call : Call) :
    (s.rewire n call).bench = redrive n (.driven call) s.now (remember s.draws s.now s.bench) := rfl
@[simp] theorem State.rewire_now (n : Name) (call : Call) : (s.rewire n call).now = s.now := rfl
@[simp] theorem State.rewire_sampled (n : Name) (call : Call) : (s.rewire n call).sampled = s.sampled := rfl
@[simp] theorem State.rewire_faults (n : Name) (call : Call) : (s.rewire n call).faults = s.faults := rfl
@[simp] theorem State.rewire_draws (n : Name) (call : Call) : (s.rewire n call).draws = s.draws := rfl

@[simp] theorem State.drive_actions (n : Name) (i : Instr) : (s.drive n i).actions = s.actions := by
  unfold State.drive; split <;> rfl
@[simp] theorem State.drive_now (n : Name) (i : Instr) : (s.drive n i).now = s.now := by
  unfold State.drive; split <;> rfl
@[simp] theorem State.drive_sampled (n : Name) (i : Instr) : (s.drive n i).sampled = s.sampled := by
  unfold State.drive; split <;> rfl
@[simp] theorem State.drive_faults (n : Name) (i : Instr) : (s.drive n i).faults = s.faults := by
  unfold State.drive; split <;> rfl
@[simp] theorem State.drive_draws (n : Name) (i : Instr) : (s.drive n i).draws = s.draws := by
  unfold State.drive; split <;> rfl

@[simp] theorem State.noteFault_next (n : Name) (t : State) : s.noteFault n (.next t) = .next t := rfl
@[simp] theorem State.noteFault_fault (n : Name) (f : Fault) :
    s.noteFault n (.fault f) = .next { s with faults := (n, f) :: s.faults, sampled := none } := rfl
@[simp] theorem State.noteFault_refused (n : Name) (r : Refusal) : s.noteFault n (.refused r) = .refused r := rfl

@[simp] theorem State.sampleWired_next (k : Nat) (c : Component) (b : Bool) (t : State) :
    State.sampleWired k c b (.next t) = .next (if b then t else t.sampleDrawn k c) := rfl
@[simp] theorem State.sampleWired_fault (k : Nat) (c : Component) (b : Bool) (f : Fault) :
    State.sampleWired k c b (.fault f) = .fault f := rfl
@[simp] theorem State.sampleWired_refused (k : Nat) (c : Component) (b : Bool) (r : Refusal) :
    State.sampleWired k c b (.refused r) = .refused r := rfl
@[simp] theorem State.sampleWired_steady (k : Nat) (c : Component) (o : Host.Outcome State Fault Refusal) :
    State.sampleWired k c true o = o := by cases o <;> rfl

@[simp] theorem Instance.component_powerUp (n : Name) (c : Component) (t : Nat) (b : Bool) :
    Instance.component { name := n, source := .powerUp c, changedAt := t, settledOnce := b } = c := rfl
@[simp] theorem Instance.component_driven (n : Name) (call : Call) (t : Nat) (b : Bool) :
    Instance.component { name := n, source := .driven call, changedAt := t, settledOnce := b } = call.component := rfl

end Sys2Proof.Machine
end

