-- ==== Sys2Proof/Laws/Evaluation.lean ====
section
/-! SUPPORT. Everything an evaluation can do, said once. -/

namespace Sys2Proof.Machine

theorem resultOf_allBits {i : Instr} (h : AllBits i) (o : Outputs) : resultOf i o = .outputs o := by
  unfold resultOf; rw [h]

theorem resultOf_nonBits {i : Instr} (h : ¬ AllBits i) (o : Outputs) : resultOf i o = .nonBits (nonBitWires i) := by
  unfold resultOf
  split
  · exact absurd ‹_› h
  · rw [‹nonBitWires i = _›]

/-- A wire stands in the fault's list exactly where the component has it as an input and it carries no bit. -/
theorem mem_nonBitWires {i : Instr} {w : Wire} :
    w ∈ nonBitWires i ↔ ∃ l, (w, l) ∈ inputWires i ∧ l.isBit = false := by
  simp [nonBitWires]

/-- The settled outputs of an operation all of whose input wires carry bits. -/
def settledOf : Instr → Outputs
  | .ha a b => let r := halfAdd a.isOne b.isOne; .halfAdder (.ofBit r.sum) (.ofBit r.carry)
  | .fa a b k => let r := fullAdd a.isOne b.isOne k.isOne; .fullAdder (.ofBit r.sum) (.ofBit r.carry)
  | .add32 a b => .adder (busOf (rippleSum (busBits a) (busBits b)))

theorem ruleResult_eq (i : Instr) : ruleResult i = resultOf i (settledOf i) := by cases i <;> rfl

/-- Every operation is the evaluation of its component by its rule. -/
theorem exec_eq_conclude (i : Instr) (s : State) : exec i s = s.conclude i.component (ruleResult i) := by
  cases i <;> rfl

theorem exec_allBits {i : Instr} (h : AllBits i) (s : State) :
    exec i s = .next { s with now := s.now + Config.tSettle i.component, sampled := some (settledOf i) } := by
  rw [exec_eq_conclude, ruleResult_eq, resultOf_allBits h]; rfl

theorem exec_nonBits {i : Instr} (h : ¬ AllBits i) (s : State) :
    exec i s = .fault (.nonBinaryInput (nonBitWires i)) := by
  rw [exec_eq_conclude, ruleResult_eq, resultOf_nonBits h]; rfl

/-- What an evaluation that answers a next state did. -/
theorem exec_next {i : Instr} {s t : State} (h : exec i s = .next t) :
    AllBits i ∧ t = { s with now := s.now + Config.tSettle i.component, sampled := some (settledOf i) } := by
  by_cases hb : AllBits i
  · rw [exec_allBits hb] at h
    exact ⟨hb, (Host.Outcome.next.inj h).symm⟩
  · rw [exec_nonBits hb] at h; exact absurd h (by simp)

@[simp] theorem settledOf_component (i : Instr) : (settledOf i).component = i.component := by cases i <;> rfl

theorem settledOf_wellFormed (i : Instr) : (settledOf i).wellFormed = true := by
  cases i <;> simp [settledOf, Outputs.wellFormed, Outputs.sumWires, Outputs.component, sumWidth]

@[simp] theorem drawnOutputs_component (k : Nat) (c : Component) : (drawnOutputs k c).component = c := by cases c <;> rfl

theorem drawnOutputs_wellFormed (k : Nat) (c : Component) : (drawnOutputs k c).wellFormed = true := by
  cases c <;> simp [drawnOutputs, Outputs.wellFormed, Outputs.sumWires, Outputs.component, sumWidth]

/-- A rule gives no outputs only where some wire carries no bit, and then it gives the list of those. -/
theorem ruleResult_nonBits {i : Instr} {ws : List Wire} (h : ruleResult i = .nonBits ws) :
    ¬ AllBits i ∧ ws = nonBitWires i := by
  rw [ruleResult_eq] at h
  by_cases hb : AllBits i
  · rw [resultOf_allBits hb] at h; exact absurd h (by simp)
  · rw [resultOf_nonBits hb] at h
    exact ⟨hb, (EvalResult.nonBits.inj h).symm⟩

/-- What an evaluation that faults lists. -/
theorem exec_fault {i : Instr} {s : State} {f : Fault} (h : exec i s = .fault f) :
    ¬ AllBits i ∧ f = .nonBinaryInput (nonBitWires i) := by
  by_cases hb : AllBits i
  · rw [exec_allBits hb] at h; exact absurd h (by simp)
  · rw [exec_nonBits hb] at h
    exact ⟨hb, (Host.Outcome.fault.inj h).symm⟩

/-- A rule's outputs are those of a vector of bits. -/
theorem ruleResult_outputs {i : Instr} {o : Outputs} (h : ruleResult i = .outputs o) : AllBits i ∧ o = settledOf i := by
  rw [ruleResult_eq] at h
  by_cases hb : AllBits i
  · rw [resultOf_allBits hb] at h
    exact ⟨hb, (EvalResult.outputs.inj h).symm⟩
  · rw [resultOf_nonBits hb] at h; exact absurd h (by simp)

end Sys2Proof.Machine
end

