-- ==== Sys2Proof/Laws/Netlist.lean ====
section
/-! SUPPORT. The bench: names, the views of its instances, and everything a step can do. -/

namespace Sys2Proof.Machine

section Lookup
variable {α β : Type}

@[simp] theorem lookupName_self (n : Name) (v : α) (rest : List (Name × α)) :
    lookupName n ((n, v) :: rest) = some v := by simp [lookupName]

theorem lookupName_other {n m : Name} (h : m ≠ n) (v : α) (rest : List (Name × α)) :
    lookupName n ((m, v) :: rest) = lookupName n rest := by simp [lookupName, h]

theorem lookupName_map (f : α → β) (n : Name) (l : List (Name × α)) :
    lookupName n (l.map fun e => (e.1, f e.2)) = (lookupName n l).map f := by
  induction l with
  | nil => rfl
  | cons e l ih => simp only [List.map_cons, lookupName]; split <;> simp [ih]

theorem lookupName_mem {n : Name} {v : α} {l : List (Name × α)} (h : lookupName n l = some v) : (n, v) ∈ l := by
  induction l with
  | nil => cases h
  | cons e l ih =>
    unfold lookupName at h
    split at h
    · cases h; subst_vars; simp
    · exact List.mem_cons_of_mem _ (ih h)

end Lookup

@[simp] theorem shapes_nil : shapes [] = [] := rfl
@[simp] theorem shapes_cons (x : Instance) (rest : List Instance) :
    shapes (x :: rest) = (x.name, x.component) :: shapes rest := rfl
@[simp] theorem nodes_nil (k : Nat) : nodes k [] = [] := rfl

@[simp] theorem nodes_length (k : Nat) (bench : List Instance) : (nodes k bench).length = bench.length := by
  induction bench with
  | nil => rfl
  | cons x rest ih => exact congrArg (· + 1) ih

@[simp] theorem nodes_cons (k : Nat) (x : Instance) (rest : List Instance) :
    nodes k (x :: rest) = (x.name, x.node (k + drawsFor rest.length) (nodes k rest)) :: nodes k rest := by
  rw [← nodes_length k rest]; rfl

/-- Reading a vector keeps the component the host drives. -/
theorem decode_component {c : Component} {v : List Level} {i : Instr} (h : decode c v = .ok i) : i.component = c := by
  unfold decode at h
  split at h
  · cases h; rfl
  · cases h; rfl
  · split at h
    · cases h; rfl
    · cases h
  · cases h
  · cases h

@[simp] theorem undrivenInputs_component (c : Component) : (undrivenInputs c).component = c := by cases c <;> rfl

/-- A component that nothing drives has an input that is no bit (R63). -/
theorem undrivenInputs_nonBits (c : Component) : ¬ AllBits (undrivenInputs c) := by cases c <;> decide

theorem Instance.inputs_component (ns : List (Name × Node)) (x : Instance) : (x.inputs ns).component = x.component := by
  unfold Instance.inputs Instance.component
  split
  · simp
  · split
    · exact decode_component ‹_›
    · simp

/-- The levels on a component's output wires are those of its ports. -/
theorem wireLevels_component (k : Nat) (steady : Bool) (i : Instr) :
    (wireLevels k i.component steady (ruleResult i)).component = i.component ∧
      (wireLevels k i.component steady (ruleResult i)).wellFormed = true := by
  cases h : ruleResult i with
  | outputs o =>
    rw [(ruleResult_outputs h).2]
    cases steady
    · exact ⟨drawnOutputs_component k _, drawnOutputs_wellFormed k _⟩
    · exact ⟨settledOf_component i, settledOf_wellFormed i⟩
  | nonBits ws => exact ⟨drawnOutputs_component k _, drawnOutputs_wellFormed k _⟩

/-- The output wires of a view are those of its component. -/
theorem Instance.node_outputs (k : Nat) (ns : List (Name × Node)) (x : Instance) :
    (x.node k ns).outputs.component = x.component ∧ (x.node k ns).outputs.wellFormed = true := by
  show (wireLevels k x.component (x.steady ns) (ruleResult (x.inputs ns))).component = x.component ∧
    (wireLevels k x.component (x.steady ns) (ruleResult (x.inputs ns))).wellFormed = true
  rw [← x.inputs_component ns]
  exact wireLevels_component k _ _

theorem shapes_eq_map_nodes (k : Nat) (bench : List Instance) :
    shapes bench = (nodes k bench).map fun e => (e.1, e.2.outputs.component) := by
  induction bench with
  | nil => rfl
  | cons x rest ih => simp [ih, (x.node_outputs _ _).1]

theorem nodes_outputs_wellFormed {k : Nat} {bench : List Instance} {e : Name × Node} (h : e ∈ nodes k bench) :
    e.2.outputs.wellFormed = true := by
  induction bench with
  | nil => simp at h
  | cons x rest ih =>
    rw [nodes_cons, List.mem_cons] at h
    rcases h with rfl | h
    · exact (x.node_outputs _ _).2
    · exact ih h

/-- The action at the head of the list is the one a step does. -/
theorem step_cons {s : State} {act : Action} {rest : List Action} (h : s.actions = act :: rest) :
    step s = State.perform { s with actions := rest } act := by
  unfold step
  rw [h]

/-- A step that answers a next state did one of these things, by the action that was pending. -/
theorem step_cases {s t : State} (h : step s = .next t) :
    (s.actions = [] ∧ t = s) ∨
    ∃ act rest, s.actions = act :: rest ∧ State.perform { s with actions := rest } act = .next t := by
  unfold step at h
  split at h
  · cases h; exact .inl ⟨‹_›, rfl⟩
  · exact .inr ⟨_, _, ‹_›, h⟩

/-- Noting faults goes on exactly where the outcome was a next state or a fault. -/
theorem noteFault_next_iff {s t : State} {n : Name} {o : Host.Outcome State Fault Refusal} :
    s.noteFault n o = .next t ↔
      o = .next t ∨ ∃ f, o = .fault f ∧ t = { s with faults := (n, f) :: s.faults, sampled := none } := by
  cases o <;> simp [eq_comm]

/-- A noted outcome is no fault. -/
theorem noteFault_ne_fault (s : State) (n : Name) (o : Host.Outcome State Fault Refusal) (f : Fault) :
    s.noteFault n o ≠ .fault f := by
  cases o <;> simp

/-- A stimulus line that is not refused: its operation is evaluated in the state with its component placed. -/
theorem runLine_decoded {s : State} {l : Line} {i : Instr} (hc : l.call.check (shapes s.bench) = none)
    (hd : decode l.call.component (l.call.vector s.look) = .ok i) :
    s.runLine l = (s.place l).noteFault l.name
      (State.sampleWired s.bench.length l.call.component (l.call.steady s.look) (exec i (s.place l))) := by
  unfold State.runLine
  simp only [hc, hd]

/-- Everything a stimulus line can do: it is refused, or its vector is one of bits, and its component is placed, the settle time
passes and its rule's outputs or draws are sampled, or its vector is none of bits, and its fault is marked. -/
theorem runLine_cases (s : State) (l : Line) :
    (∃ r, s.runLine l = .refused r) ∨
    l.call.check (shapes s.bench) = none ∧ ∃ i, decode l.call.component (l.call.vector s.look) = .ok i ∧
      ((AllBits i ∧ ∃ u, exec i (s.place l) = .next u ∧
          s.runLine l = .next (if l.call.steady s.look then u else u.sampleDrawn s.bench.length l.call.component)) ∨
       (¬ AllBits i ∧ s.runLine l = .next
          { s.place l with faults := (l.name, .nonBinaryInput (nonBitWires i)) :: s.faults, sampled := none })) := by
  cases hc : l.call.check (shapes s.bench) with
  | some r => exact .inl ⟨_, by unfold State.runLine; rw [hc]⟩
  | none =>
    cases hd : decode l.call.component (l.call.vector s.look) with
    | error e => exact .inl ⟨.undecodable e, by unfold State.runLine; simp only [hc, hd]⟩
    | ok i =>
      refine .inr ⟨rfl, i, rfl, ?_⟩
      rw [runLine_decoded hc hd]
      by_cases hb : AllBits i
      · exact .inl ⟨hb, _, exec_allBits hb _, by rw [exec_allBits hb]; rfl⟩
      · exact .inr ⟨hb, by rw [exec_nonBits hb]; rfl⟩

/-- Everything a sample of an instance can do: the outputs of its rule, draws, or a fault that names its wires that are no bits. -/
theorem sampleInstance_cases (s : State) (x : Instance) (older : List Instance) :
    (∃ i, AllBits i ∧ s.sampleInstance x older = .next { s with sampled := some (settledOf i) }) ∨
    s.sampleInstance x older = .next (s.sampleDrawn older.length x.component) ∨
    (x.settledOnce = true ∧ ¬ AllBits (x.inputs (nodes s.draws older)) ∧
      s.sampleInstance x older = .fault (.nonBinaryInput (nonBitWires (x.inputs (nodes s.draws older))))) := by
  unfold State.sampleInstance
  simp only
  split
  · have hr : (x.node (s.draws + drawsFor older.length) (nodes s.draws older)).result =
      ruleResult (x.inputs (nodes s.draws older)) := rfl
    split
    · rename_i h
      obtain ⟨hb, rfl⟩ := ruleResult_outputs (hr.symm.trans h)
      exact .inl ⟨_, hb, rfl⟩
    · rename_i h
      obtain ⟨hb, rfl⟩ := ruleResult_nonBits (hr.symm.trans h)
      split
      · exact .inr (.inr ⟨‹_›, hb, rfl⟩)
      · exact .inr (.inl rfl)
  · exact .inr (.inl rfl)

/-- A sample of an instance goes on, with its fault, if there is one, marked. -/
theorem sampleInstance_goes_on (s : State) (n : Name) (x : Instance) (older : List Instance) :
    ∃ t, s.noteFault n (s.sampleInstance x older) = .next t := by
  rcases sampleInstance_cases s x older with ⟨i, -, h⟩ | h | ⟨-, -, h⟩ <;> rw [h] <;> exact ⟨_, rfl⟩

/-- A component that has never settled gives draws while an input of it is no bit, ready or not (R63). -/
theorem sampleInstance_drawn {s : State} {x : Instance} {older : List Instance} (hs : x.settledOnce = false)
    (hb : ¬ AllBits (x.inputs (nodes s.draws older))) :
    s.sampleInstance x older = .next (s.sampleDrawn older.length x.component) := by
  have hr : ruleResult (x.inputs (nodes s.draws older)) = .nonBits (nonBitWires (x.inputs (nodes s.draws older))) := by
    rw [ruleResult_eq, resultOf_nonBits hb]
  unfold State.sampleInstance
  simp only [Instance.node, hr, hs]
  split <;> rfl

/-- Everything a sample of a name can do: it is refused, or samples the newest instance of the name. -/
theorem sampleIn_cases (s : State) (n : Name) (bench : List Instance) :
    (s.sampleIn n bench = .refused (.noSuchInstance n) ∧ ∀ y ∈ bench, y.name ≠ n) ∨
    ∃ newer x older, bench = newer ++ x :: older ∧ x.name = n ∧ (∀ y ∈ newer, y.name ≠ n) ∧
      s.sampleIn n bench = s.sampleInstance x older := by
  induction bench with
  | nil => exact .inl ⟨rfl, by simp⟩
  | cons y bench ih =>
    unfold State.sampleIn
    split
    · exact .inr ⟨[], y, bench, rfl, ‹_›, by simp, rfl⟩
    · rename_i hy
      rcases ih with ⟨h, hn⟩ | ⟨newer, x, older, rfl, hx, hn, h⟩
      · exact .inl ⟨h, by simpa using ⟨hy, hn⟩⟩
      · exact .inr ⟨y :: newer, x, older, rfl, hx, by simpa using ⟨hy, hn⟩, h⟩

end Sys2Proof.Machine
end

