-- ==== Sys2Proof/Laws/Operands.lean ====
section
/-! SUPPORT. Which vectors carry bits, how wide an operand is, and what a call that is not refused has shown. -/

namespace Sys2Proof.Machine

/-- A vector is legal exactly when every input wire carries a bit (R36). -/
theorem allBits_iff (i : Instr) : AllBits i ↔ ∀ w l, (w, l) ∈ inputWires i → l.isBit = true := by
  rw [AllBits, List.eq_nil_iff_forall_not_mem]
  simp only [mem_nonBitWires]
  constructor
  · intro h w l hw
    by_contra hb
    exact h w ⟨l, hw, by simpa using hb⟩
  · rintro h w ⟨l, hw, hb⟩
    simp [h w l hw] at hb

theorem allBits_ha (a b : Level) : AllBits (.ha a b) ↔ a.isBit = true ∧ b.isBit = true := by
  simp [allBits_iff, inputWires, or_imp, forall_and]

theorem allBits_fa (a b k : Level) : AllBits (.fa a b k) ↔ a.isBit = true ∧ b.isBit = true ∧ k.isBit = true := by
  simp [allBits_iff, inputWires, or_imp, forall_and]

theorem allBits_add32 (a b : List Level) :
    AllBits (.add32 a b) ↔ ∀ i, i < wordWidth → (busWire a i).isBit = true ∧ (busWire b i).isBit = true := by
  simp only [allBits_iff, inputWires, busWires, List.mem_append, List.mem_map, List.mem_range, Prod.mk.injEq]
  constructor
  · intro h i hi
    exact ⟨h _ _ (.inl ⟨i, hi, rfl, rfl⟩), h _ _ (.inr ⟨i, hi, rfl, rfl⟩)⟩
  · rintro h w l (⟨i, hi, rfl, rfl⟩ | ⟨i, hi, rfl, rfl⟩)
    · exact (h i hi).1
    · exact (h i hi).2

theorem allBits_busOf (a b : Word) : AllBits (.add32 (busOf a) (busOf b)) := by
  rw [allBits_add32]
  intro i hi
  simp [busWire_busOf _ hi]

/-- The component under a name is the one whose settled view stands under it. -/
theorem lookupName_shapes (k : Nat) (n : Name) (bench : List Instance) :
    lookupName n (shapes bench) = (lookupName n (nodes k bench)).map fun d => d.outputs.component := by
  rw [shapes_eq_map_nodes k]
  exact lookupName_map (fun d : Node => d.outputs.component) n _

theorem sumWires_length {k : Nat} {bench : List Instance} {n : Name} {d : Node} (h : lookupName n (nodes k bench) = some d) :
    d.outputs.sumWires.length = sumWidth d.outputs.component := by
  have := nodes_outputs_wellFormed (lookupName_mem h)
  simpa [Outputs.wellFormed] using this

theorem carryWires_length (o : Outputs) : o.carryWires.length = carryWidth o.component := by cases o <;> rfl

/-- An operand has as many levels as its width says, once what it refers to has settled. -/
theorem levels_length (k : Nat) (bench : List Instance) (x : Operand) : (x.levels (nodes k bench)).length = x.width (shapes bench) := by
  induction x with
  | lit ls => rfl
  | sum n =>
    simp only [Operand.levels, Operand.width, lookupName_shapes k]
    cases h : lookupName n (nodes k bench) with
    | none => rfl
    | some d => simpa using sumWires_length h
  | carry n =>
    simp only [Operand.levels, Operand.width, lookupName_shapes k]
    cases h : lookupName n (nodes k bench) with
    | none => rfl
    | some d => simpa using carryWires_length _
  | sumBit n i =>
    simp only [Operand.levels, Operand.width, lookupName_shapes k]
    cases h : lookupName n (nodes k bench) with
    | none => rfl
    | some d =>
      have := sumWires_length h
      simp only [Option.map_some, Option.getD_some, ← this]
      split
      · rename_i hi; rw [List.getElem?_eq_getElem hi]; rfl
      · rename_i hi; rw [List.getElem?_eq_none (by omega)]; rfl
  | inv x ih => simpa [Operand.levels, Operand.width] using ih
  | cat x y ihx ihy => simp [Operand.levels, Operand.width, ihx, ihy]; omega

theorem checkPort_none {shapes : List (Name × Component)} {p : Port} {w : Nat} {x : Operand}
    (h : x.checkPort shapes p w = none) : x.check shapes = none ∧ x.width shapes = w := by
  unfold Operand.checkPort at h
  cases hc : x.check shapes with
  | some r => rw [hc] at h; simp at h
  | none => rw [hc] at h; simpa using h

/-- An operand is not refused, and has w wires, exactly where it fits w. -/
theorem check_none_iff (shapes : List (Name × Component)) (x : Operand) (w : Nat) :
    x.check shapes = none ∧ x.width shapes = w ↔ x.Fits shapes w := by
  induction x generalizing w with
  | lit ls => simp [Operand.check, Operand.width, Operand.Fits]
  | sum n =>
    simp only [Operand.check, Operand.width, Operand.Fits]
    cases lookupName n shapes with
    | none => simp
    | some c => cases c <;> simp [sumWidth, eq_comm]
  | carry n =>
    simp only [Operand.check, Operand.width, Operand.Fits]
    cases lookupName n shapes with
    | none => simp
    | some c => cases c <;> simp [carryWidth, eq_comm]
  | sumBit n i =>
    simp only [Operand.check, Operand.width, Operand.Fits]
    cases lookupName n shapes with
    | none => simp
    | some c =>
      cases c
      · by_cases h : i = 0 <;> simp [sumWidth, h, eq_comm]
      · by_cases h : i = 0 <;> simp [sumWidth, h, eq_comm]
      · by_cases h : i < wordWidth <;> simp [sumWidth, h, eq_comm]
  | inv x ih => exact ih w
  | cat x y ihx ihy =>
    simp only [Operand.check, Operand.width, Operand.Fits, Option.or_eq_none_iff]
    constructor
    · rintro ⟨⟨hx, hy⟩, h⟩
      exact ⟨_, _, h.symm, (ihx _).1 ⟨hx, rfl⟩, (ihy _).1 ⟨hy, rfl⟩⟩
    · rintro ⟨u, v, rfl, hx, hy⟩
      obtain ⟨cx, wx⟩ := (ihx u).2 hx
      obtain ⟨cy, wy⟩ := (ihy v).2 hy
      exact ⟨⟨cx, cy⟩, by rw [wx, wy]⟩

theorem checkPort_none_iff (shapes : List (Name × Component)) (p : Port) (w : Nat) (x : Operand) :
    x.checkPort shapes p w = none ↔ x.Fits shapes w := by
  rw [← check_none_iff]
  unfold Operand.checkPort
  simp

/-- A call that is not refused: each operand has a meaning and its port's width. -/
theorem check_ports {shapes : List (Name × Component)} {c : Call} (h : c.check shapes = none) :
    ∀ q ∈ c.ports, q.2.2.check shapes = none ∧ q.2.2.width shapes = q.2.1 :=
  fun q hq => checkPort_none (List.findSome?_eq_none_iff.1 h q hq)

@[simp] theorem ofInstr_component (i : Instr) : (Call.ofInstr i).component = i.component := by cases i <;> rfl

@[simp] theorem ofInstr_vector (i : Instr) (ns : List (Name × Node)) : (Call.ofInstr i).vector ns = encode i := by
  cases i <;> rfl

@[simp] theorem ofInstr_readyAt (i : Instr) (ns : List (Name × Node)) : (Call.ofInstr i).readyAt ns = 0 := by
  cases i <;> rfl

@[simp] theorem ofInstr_steady (i : Instr) (ns : List (Name × Node)) : (Call.ofInstr i).steady ns = true := by
  cases i <;> rfl

theorem ofInstr_check {i : Instr} (h : i.wellFormed = true) (shapes : List (Name × Component)) :
    (Call.ofInstr i).check shapes = none := by
  cases i with
  | ha a b => rfl
  | fa a b k => rfl
  | add32 a b =>
    simp only [Instr.wellFormed, busWellFormed, Bool.and_eq_true, beq_iff_eq] at h
    simp [Call.check, Call.ofInstr, Call.ports, Operand.checkPort, Operand.check, Operand.width, h]

end Sys2Proof.Machine
end

