-- ==== Sys2Proof/Laws/Bench.lean ====
section
/-! SUPPORT. The newest instance of a name: where it stands, and what sampling or driving it does. -/

namespace Sys2Proof.Machine

/-- Where the newest instance of a name stands. -/
theorem lookupName_split {α : Type} (f : Instance → α) (n : Name) (bench : List Instance) {v : α}
    (h : lookupName n (bench.map fun x => (x.name, f x)) = some v) :
    ∃ newer x older, bench = newer ++ x :: older ∧ x.name = n ∧ f x = v ∧ ∀ y ∈ newer, y.name ≠ n := by
  induction bench with
  | nil => cases h
  | cons x bench ih =>
    simp only [List.map_cons, lookupName] at h
    split at h
    · exact ⟨[], x, bench, rfl, ‹_›, by simpa using h, by simp⟩
    · obtain ⟨newer, y, older, rfl, h1, h2, h3⟩ := ih h
      exact ⟨x :: newer, y, older, rfl, h1, h2, by simp; exact ⟨‹_›, h3⟩⟩

section Newest
variable {n : Name} {newer older : List Instance} {x : Instance}

theorem lookupName_newest {α : Type} (f : Instance → α) (hx : x.name = n) (hn : ∀ y ∈ newer, y.name ≠ n) :
    lookupName n ((newer ++ x :: older).map fun x => (x.name, f x)) = some (f x) := by
  induction newer with
  | nil => simp [← hx]
  | cons y newer ih =>
    simp only [List.mem_cons, forall_eq_or_imp] at hn
    simp only [List.cons_append, List.map_cons]
    rw [lookupName_other hn.1]
    exact ih hn.2

theorem nodes_newest (k : Nat) (hx : x.name = n) (hn : ∀ y ∈ newer, y.name ≠ n) :
    lookupName n (nodes k (newer ++ x :: older)) = some (x.node (k + drawsFor older.length) (nodes k older)) := by
  induction newer with
  | nil => simp [← hx]
  | cons y newer ih =>
    simp only [List.mem_cons, forall_eq_or_imp] at hn
    simp only [List.cons_append, nodes_cons]
    rw [lookupName_other hn.1]
    exact ih hn.2

theorem sampleIn_newest (s : State) (hx : x.name = n) (hn : ∀ y ∈ newer, y.name ≠ n) :
    s.sampleIn n (newer ++ x :: older) = s.sampleInstance x older := by
  induction newer with
  | nil => simp [State.sampleIn, hx]
  | cons y newer ih =>
    simp only [List.mem_cons, forall_eq_or_imp] at hn
    simp only [List.cons_append, State.sampleIn, if_neg hn.1]
    exact ih hn.2

/-- A step that samples a name samples its newest instance and marks the fault, if there is one. -/
theorem step_sample {s : State} {rest : List Action} (h : s.actions = .sample n :: rest)
    (hb : s.bench = newer ++ x :: older) (hx : x.name = n) (hn : ∀ y ∈ newer, y.name ≠ n) :
    step s = State.noteFault { s with actions := rest } n (State.sampleInstance { s with actions := rest } x older) := by
  rw [step_cons h]
  show State.noteFault { s with actions := rest } n (State.sampleIn { s with actions := rest } n s.bench) = _
  rw [hb, sampleIn_newest _ hx hn]

theorem redrive_newest (src : Source) (t : Nat) (hx : x.name = n) (hn : ∀ y ∈ newer, y.name ≠ n) :
    redrive n src t (newer ++ x :: older) =
      newer ++ (if x.source = src then x else { x with source := src, changedAt := t }) :: older := by
  induction newer with
  | nil => simp [redrive, hx]
  | cons y newer ih =>
    simp only [List.mem_cons, forall_eq_or_imp] at hn
    simp only [List.cons_append, redrive, if_neg hn.1, ih hn.2]

end Newest

/-- The newest instance of a name is where `newest` finds it. -/
theorem newest_eq_some {n : Name} {bench newer older : List Instance} {x : Instance} :
    newest n bench = some (newer, x, older) ↔ bench = newer ++ x :: older ∧ x.name = n ∧ ∀ y ∈ newer, y.name ≠ n := by
  induction bench generalizing newer with
  | nil => simp [newest]
  | cons z bench ih =>
    unfold newest
    split
    · rename_i hz
      cases newer with
      | nil => simp only [Option.some.injEq, Prod.mk.injEq, true_and, List.nil_append, List.cons.injEq]; aesop
      | cons w newer => simp; rintro rfl - - h; exact absurd hz h
    · rename_i hz
      cases newer with
      | nil => simp; rintro rfl - h; exact absurd h hz
      | cons w newer =>
        simp only [Option.map_eq_some_iff, Prod.mk.injEq, List.cons.injEq, List.cons_append, List.mem_cons, forall_eq_or_imp]
        constructor
        · rintro ⟨⟨a, b, c⟩, h, ⟨rfl, rfl⟩, heq⟩
          cases heq
          obtain ⟨h1, h2, h3⟩ := ih.1 h
          exact ⟨⟨rfl, h1⟩, h2, hz, h3⟩
        · rintro ⟨⟨rfl, h1⟩, h2, -, h3⟩
          exact ⟨_, ih.2 ⟨h1, h2, h3⟩, ⟨rfl, rfl⟩, rfl⟩

theorem newest_eq_none {n : Name} {bench : List Instance} : newest n bench = none ↔ ∀ y ∈ bench, y.name ≠ n := by
  induction bench with
  | nil => simp [newest]
  | cons z bench ih =>
    unfold newest
    split
    · simp_all
    · simp_all

@[simp] theorem source_call_component (x : Instance) : x.source.call.component = x.component := by
  unfold Source.call Instance.component
  split <;> simp

/-- Another operand on a port keeps the component. -/
theorem setPort_component {p : Port} {x : Operand} {c call : Call} (h : c.setPort p x = some call) :
    call.component = c.component := by
  cases c <;> cases p <;> first | (cases h; rfl) | cases h

/-- Every port of a component has its width. -/
theorem ports_width {c : Call} {q : Port × Nat × Operand} (h : q ∈ c.ports) : q.2.1 = portWidth c.component := by
  cases c <;> simp [Call.ports] at h <;> casesm* _ ∨ _ <;> subst_vars <;> rfl

/-- Everything another operand on a port does: it stands in place of the old one, and the other ports keep theirs. -/
theorem setPort_ports {p : Port} {w : Nat} {x old : Operand} {c : Call} {before after : List (Port × Nat × Operand)}
    (h : c.ports = before ++ (p, w, old) :: after) :
    ∃ call, c.setPort p x = some call ∧ call.ports = before ++ (p, w, x) :: after := by
  cases c <;> simp only [Call.ports] at h <;>
    rcases before with - | ⟨_, - | ⟨_, - | ⟨_, - | ⟨_, before⟩⟩⟩⟩ <;> simp at h <;>
      casesm* _ ∧ _ <;> subst_vars <;> exact ⟨_, rfl, rfl⟩

/-- Everything a change of an input can do: it is refused, or the operand fits the port of the component and drives it from now on. -/
theorem change_cases (s : State) (n : Name) (p : Port) (x : Operand) :
    (∃ r, s.change n p x = .refused r) ∨
    ∃ newer y older call, s.bench = newer ++ y :: older ∧ y.name = n ∧ (∀ z ∈ newer, z.name ≠ n) ∧
      y.source.call.setPort p x = some call ∧ (∀ z ∈ newer ++ [y], x.refersTo z.name = false) ∧
      x.checkPort (shapes older) p (portWidth y.component) = none ∧ s.change n p x = .next (s.rewire n call) := by
  unfold State.change
  cases hn : newest n s.bench with
  | none => exact .inl ⟨_, rfl⟩
  | some r =>
    obtain ⟨newer, y, older⟩ := r
    obtain ⟨hb, hy, hnew⟩ := newest_eq_some.1 hn
    simp only
    cases hp : y.source.call.setPort p x with
    | none => exact .inl ⟨_, rfl⟩
    | some call =>
      simp only
      cases hf : (newer ++ [y]).find? (fun z => x.refersTo z.name) with
      | some z => exact .inl ⟨_, rfl⟩
      | none =>
        simp only
        have hc : call.component = y.component := (setPort_component hp).trans (source_call_component y)
        cases hx : x.checkPort (shapes older) p (portWidth call.component) with
        | some r => exact .inl ⟨_, rfl⟩
        | none =>
          exact .inr ⟨newer, y, older, call, hb, hy, hnew, hp,
            fun z hz => by simpa using List.find?_eq_none.1 hf z hz, by rw [← hc]; exact hx, rfl⟩

/-- Driving an instance with a source of its own component keeps every name and component. -/
theorem redrive_shapes (n : Name) (call : Call) (t : Nat) (bench : List Instance)
    (h : lookupName n (shapes bench) = some call.component) :
    shapes (redrive n (.driven call) t bench) = shapes bench := by
  induction bench with
  | nil => rfl
  | cons x bench ih =>
    simp only [shapes_cons, lookupName] at h
    simp only [redrive]
    split
    · rename_i hx
      split
      · rfl
      · rw [if_pos hx, Option.some.injEq] at h
        simp only [shapes_cons, h]
        rfl
    · rename_i hx
      rw [if_neg hx] at h
      simp only [shapes_cons, ih h]

/-- An instance all of whose wires come from the decoded vector settles to that vector's rule, a settle time after its change. -/
theorem Instance.node_driven {n : Name} {call : Call} {t : Nat} {b : Bool} {k : Nat} {ns : List (Name × Node)} {i : Instr}
    (h : decode call.component (call.vector ns) = .ok i) :
    (Instance.mk n (.driven call) t b).node k ns =
      { result := ruleResult i
        steady := call.steady ns
        readyAt := max t (call.readyAt ns) + Config.tSettle call.component
        outputs := wireLevels k call.component (call.steady ns) (ruleResult i) } := by
  have : (Instance.mk n (.driven call) t b).inputs ns = i := by
    simp only [Instance.inputs]
    rw [h]
  simp only [Instance.node, this, Instance.sourceReadyAt, Instance.component, Instance.steady]

/-! ### Remembering what has settled changes nothing but that -/

section Remember
variable (k t : Nat) (bench : List Instance)

@[simp] theorem remember_length : (remember k t bench).length = bench.length := by
  induction bench with
  | nil => rfl
  | cons x rest ih => simp [remember, ih]

@[simp] theorem remember_nodes (j : Nat) : nodes j (remember k t bench) = nodes j bench := by
  induction bench with
  | nil => rfl
  | cons x rest ih => simp only [remember, nodes_cons, remember_length, ih]; rfl

@[simp] theorem remember_map {α : Type} (f : Name → Source → Nat → α) :
    (remember k t bench).map (fun x => f x.name x.source x.changedAt) = bench.map fun x => f x.name x.source x.changedAt := by
  induction bench with
  | nil => rfl
  | cons x rest ih => simp only [remember, List.map_cons, ih]

theorem remember_sources :
    (remember k t bench).map (fun x => (x.name, x.source)) = bench.map fun x => (x.name, x.source) :=
  remember_map k t bench fun n src _ => (n, src)

@[simp] theorem remember_shapes : shapes (remember k t bench) = shapes bench := by
  induction bench with
  | nil => rfl
  | cons x rest ih => simp only [remember, shapes_cons, ih]; rfl

@[simp] theorem remember_wired : wired (remember k t bench) = wired bench := by
  induction bench with
  | nil => rfl
  | cons x rest ih => simp only [remember, wired, remember_shapes, ih]

end Remember

/-- Where an instance stood, the one that remembers whether it has settled stands. -/
theorem remember_append (k t : Nat) (newer older : List Instance) (x : Instance) :
    ∃ newer', remember k t (newer ++ x :: older) =
        newer' ++ { x with settledOnce := x.settledOnce ||
          (x.node k (nodes k older)).settledBy t } :: remember k t older ∧
      newer'.map Instance.name = newer.map Instance.name := by
  induction newer with
  | nil => exact ⟨[], rfl, rfl⟩
  | cons y newer ih =>
    obtain ⟨newer', h, hn⟩ := ih
    refine ⟨{ y with settledOnce := y.settledOnce ||
      (y.node k (nodes k (newer ++ x :: older))).settledBy t } :: newer', ?_, ?_⟩
    · simp only [List.cons_append, remember, h]
    · simp only [List.map_cons, hn]

/-- Everything a rewiring of a name does to the bench: its newest instance is driven by the call, changed now unless the call drove it
already, what has settled is remembered, and every other instance keeps its name, source and time of change. -/
theorem rewire_newest (s : State) (n : Name) (call : Call) {newer older : List Instance} {y : Instance}
    (hb : s.bench = newer ++ y :: older) (hy : y.name = n) (hn : ∀ z ∈ newer, z.name ≠ n) :
    ∃ newer' y' older', (s.rewire n call).bench = newer' ++ y' :: older' ∧ y'.name = n ∧ (∀ z ∈ newer', z.name ≠ n) ∧
      y'.source = .driven call ∧ y'.changedAt = (if y.source = .driven call then y.changedAt else s.now) ∧
      older' = remember s.draws s.now older ∧
      (s.rewire n call).bench.map (fun z => (z.name, z.source, z.changedAt)) =
        (newer.map fun z => (z.name, z.source, z.changedAt)) ++
        (n, .driven call, if y.source = .driven call then y.changedAt else s.now) ::
        (older.map fun z => (z.name, z.source, z.changedAt)) := by
  obtain ⟨newer', h1, h2⟩ := remember_append s.draws s.now newer older y
  have hn' : ∀ z ∈ newer', z.name ≠ n := by
    intro z hz
    have : z.name ∈ newer'.map Instance.name := List.mem_map.2 ⟨z, hz, rfl⟩
    rw [h2] at this
    obtain ⟨y, hy, he⟩ := List.mem_map.1 this
    rw [← he]; exact hn y hy
  have tr : ∀ b, (remember s.draws s.now b).map (fun y => (y.name, y.source, y.changedAt)) =
      b.map fun y => (y.name, y.source, y.changedAt) := fun b => remember_map _ _ b fun n src c => (n, src, c)
  have h3 := tr (newer ++ y :: older)
  rw [h1] at h3
  simp only [List.map_append, List.map_cons] at h3
  have hlen : (newer'.map fun y => (y.name, y.source, y.changedAt)).length =
      (newer.map fun y => (y.name, y.source, y.changedAt)).length := by
    simpa using congrArg List.length h2
  obtain ⟨h4, h5⟩ := List.append_inj h3 hlen
  have hbench : (s.rewire n call).bench = _ :=
    (congrArg (redrive n (.driven call) s.now) ((congrArg (remember s.draws s.now) hb).trans h1)).trans
      (redrive_newest (.driven call) s.now (show _ = n from hy) hn')
  refine ⟨newer', _, _, hbench, ?_, hn', ?_, ?_, rfl, ?_⟩
  · split <;> exact hy
  · split <;> first | assumption | rfl
  · split <;> rfl
  · rw [hbench]
    simp only [List.map_append, List.map_cons, h4, tr]
    congr 2
    split <;> simp_all

end Sys2Proof.Machine
end

