-- ==== Sys2Proof/Laws/PerInstr.lean ====
section
/-! SUPPORT. Per operation: the input vector of a well-formed operation has the width of its component's format (R32 to R34). -/

namespace Sys2Proof.Laws.VectorWidth

def Statement (i : Instr) : Prop := i.wellFormed = true → (encode i).length = inputWidth i.component

theorem ha (a b : Level) : Statement (.ha a b) := fun _ => rfl

theorem fa (a b carryIn : Level) : Statement (.fa a b carryIn) := fun _ => rfl

theorem add32 (a b : List Level) : Statement (.add32 a b) := by
  intro h
  simp only [Instr.wellFormed, busWellFormed, Bool.and_eq_true, beq_iff_eq] at h
  simp only [encode, List.length_append, inputWidth, Instr.component, h.1, h.2]
  rfl

end Sys2Proof.Laws.VectorWidth
end

