-- ==== Sys2Proof/Laws/Run.lean ====
section
/-! SUPPORT. A run of the machine behind the host's interface, one step at a time. -/

namespace Sys2Proof.Machine

theorem run_zero (s : State) : core.run 0 s = .next s := rfl

theorem run_next {s t : State} (h : step s = .next t) (m : Nat) : core.run (m + 1) s = core.run m t := by
  have h' : core.step s = .next t := h
  simp only [Host.Core.run, h']

theorem run_fault {s : State} {f : Fault} (h : step s = .fault f) (m : Nat) : core.run (m + 1) s = .fault f := by
  have h' : core.step s = .fault f := h
  simp only [Host.Core.run, h']

theorem run_refused {s : State} {r : Refusal} (h : step s = .refused r) (m : Nat) : core.run (m + 1) s = .refused r := by
  have h' : core.step s = .refused r := h
  simp only [Host.Core.run, h']

end Sys2Proof.Machine
end

