-- ==== Sys2Proof/Laws/Views.lean ====
section
/-! SUPPORT. What a component settles to does not depend on the draws: a component that settles reads wires that settle, and the
views of two benches agree where what they refer to agrees. -/

namespace Sys2Proof.Machine

/-- Two views of a component tell the host the same once they have settled. -/
structure Node.Same (d e : Node) : Prop where
  steady : d.steady = e.steady
  readyAt : d.readyAt = e.readyAt
  result : d.steady = true → d.result = e.result
  outputs : d.settles = true → d.outputs = e.outputs

theorem Node.Same.refl (d : Node) : d.Same d := ⟨rfl, rfl, fun _ => rfl, fun _ => rfl⟩

theorem Node.Same.settles {d e : Node} (h : d.Same e) : d.settles = e.settles := by
  unfold Node.settles
  cases hd : d.steady with
  | false => rw [← h.steady, hd]; rfl
  | true => rw [← h.steady, hd, h.result hd]

theorem Node.Same.settled {d e : Node} (h : d.Same e) : d.settled = e.settled := by
  unfold Node.settled
  rw [← h.settles]
  split
  · rw [h.outputs ‹_›]
  · rfl

/-- The views under one name agree: none under both, or the same view. -/
abbrev SameAt (m : Name) (ns ns' : List (Name × Node)) : Prop := Option.Rel Node.Same (lookupName m ns) (lookupName m ns')

theorem SameAt.refl (m : Name) (ns : List (Name × Node)) : SameAt m ns ns := by
  unfold SameAt
  cases lookupName m ns with
  | none => exact .none
  | some d => exact .some (.refl d)

theorem SameAt.of_eq {m : Name} {ns ns' : List (Name × Node)} (h : lookupName m ns = lookupName m ns') : SameAt m ns ns' := by
  unfold SameAt; rw [h]; exact SameAt.refl m ns'

theorem SameAt.cases {m : Name} {ns ns' : List (Name × Node)} (h : SameAt m ns ns') :
    (lookupName m ns = none ∧ lookupName m ns' = none) ∨
    ∃ d e, lookupName m ns = some d ∧ lookupName m ns' = some e ∧ d.Same e := by
  unfold SameAt at h
  generalize lookupName m ns = a, lookupName m ns' = b at h
  cases h with
  | none => exact .inl ⟨rfl, rfl⟩
  | some h => exact .inr ⟨_, _, rfl, rfl, h⟩

/-- Views that agree settle to the same outputs. -/
theorem SameAt.settled {m : Name} {ns ns' : List (Name × Node)} (h : SameAt m ns ns') :
    (lookupName m ns).bind Node.settled = (lookupName m ns').bind Node.settled := by
  rcases h.cases with ⟨h1, h2⟩ | ⟨d, e, h1, h2, h3⟩
  · rw [h1, h2]
  · rw [h1, h2]; exact h3.settled

/-- An operand all of whose references agree settles alike, at the same time, and to the same levels. -/
theorem Operand.same {ns ns' : List (Name × Node)} (x : Operand) (h : ∀ m, x.refersTo m = true → SameAt m ns ns') :
    x.steady ns = x.steady ns' ∧ x.readyAt ns = x.readyAt ns' ∧ (x.steady ns = true → x.levels ns = x.levels ns') := by
  have ref : ∀ m, SameAt m ns ns' →
      ((lookupName m ns).map Node.settles).getD false = ((lookupName m ns').map Node.settles).getD false ∧
      ((lookupName m ns).map Node.readyAt).getD 0 = ((lookupName m ns').map Node.readyAt).getD 0 ∧
      (((lookupName m ns).map Node.settles).getD false = true →
        ∀ f : Outputs → List Level,
          ((lookupName m ns).map fun d => f d.outputs).getD [] = ((lookupName m ns').map fun d => f d.outputs).getD []) := by
    intro m hm
    rcases hm.cases with ⟨h1, h2⟩ | ⟨d, e, h1, h2, hde⟩
    · rw [h1, h2]; exact ⟨rfl, rfl, fun _ _ => rfl⟩
    · rw [h1, h2]
      refine ⟨hde.settles, hde.readyAt, fun hs f => ?_⟩
      simp only [Option.map_some, Option.getD_some] at hs ⊢
      rw [hde.outputs hs]
  induction x with
  | lit ls => exact ⟨rfl, rfl, fun _ => rfl⟩
  | sum m =>
    obtain ⟨h1, h2, h3⟩ := ref m (h m (by simp [Operand.refersTo]))
    exact ⟨h1, h2, fun hs => h3 hs _⟩
  | carry m =>
    obtain ⟨h1, h2, h3⟩ := ref m (h m (by simp [Operand.refersTo]))
    exact ⟨h1, h2, fun hs => h3 hs _⟩
  | sumBit m i =>
    obtain ⟨h1, h2, h3⟩ := ref m (h m (by simp [Operand.refersTo]))
    exact ⟨h1, h2, fun hs => by simp only [Operand.levels, h3 hs]⟩
  | inv x ih =>
    obtain ⟨h1, h2, h3⟩ := ih h
    exact ⟨h1, h2, fun hs => by simp only [Operand.levels, h3 hs]⟩
  | cat x y ihx ihy =>
    obtain ⟨h1, h2, h3⟩ := ihx fun m hm => h m (by simp [Operand.refersTo, hm])
    obtain ⟨h4, h5, h6⟩ := ihy fun m hm => h m (by simp [Operand.refersTo, hm])
    refine ⟨by simp only [Operand.steady, h1, h4], by simp only [Operand.readyAt, h2, h5], fun hs => ?_⟩
    simp only [Operand.steady, Bool.and_eq_true] at hs
    simp only [Operand.levels, h3 hs.1, h6 hs.2]

/-- A call all of whose references agree settles alike, at the same time, and to the same input vector. -/
theorem Call.same {ns ns' : List (Name × Node)} (c : Call) (h : ∀ m, c.refersTo m = true → SameAt m ns ns') :
    c.steady ns = c.steady ns' ∧ c.readyAt ns = c.readyAt ns' ∧ (c.steady ns = true → c.vector ns = c.vector ns') := by
  have port : ∀ q ∈ c.ports, q.2.2.steady ns = q.2.2.steady ns' ∧ q.2.2.readyAt ns = q.2.2.readyAt ns' ∧
      (q.2.2.steady ns = true → q.2.2.levels ns = q.2.2.levels ns') := fun q hq =>
    q.2.2.same fun m hm => h m (List.any_eq_true.2 ⟨q, hq, hm⟩)
  cases c <;>
    simp only [Call.ports, List.mem_cons, List.not_mem_nil, or_false, forall_eq_or_imp, forall_eq] at port <;>
    simp only [Call.steady, Call.readyAt, Call.ports, Call.vector, List.all_cons, List.all_nil, List.foldl_cons, List.foldl_nil,
      port, Bool.and_true, Bool.and_eq_true, true_and] <;>
    intro hs <;> simp [port, hs]

/-- An instance all of whose references agree has the same view, whatever the draws. -/
theorem Instance.same {ns ns' : List (Name × Node)} (k k' : Nat) (x : Instance)
    (h : ∀ call, x.source = .driven call → ∀ m, call.refersTo m = true → SameAt m ns ns') :
    (x.node k ns).Same (x.node k' ns') := by
  obtain ⟨n, src, t, b⟩ := x
  cases src with
  | powerUp c =>
    refine ⟨rfl, rfl, fun _ => rfl, fun hs => absurd hs ?_⟩
    show ¬ (true && (ruleResult (undrivenInputs c)).isOutputs) = true
    cases c <;> decide
  | driven call =>
    obtain ⟨h1, h2, h3⟩ := call.same (h call rfl)
    have hr : call.steady ns = true →
        ruleResult ((Instance.mk n (.driven call) t b).inputs ns) = ruleResult ((Instance.mk n (.driven call) t b).inputs ns') := by
      intro hs
      simp only [Instance.inputs, h3 hs]
    refine ⟨h1, by simp only [Instance.node, Instance.sourceReadyAt, h2], hr, fun hs => ?_⟩
    simp only [Node.settles, Instance.node, Instance.steady, Bool.and_eq_true] at hs
    simp only [Instance.node, Instance.steady]
    rw [← hr hs.1, ← h1, hs.1]
    revert hs
    cases ruleResult ((Instance.mk n (.driven call) t b).inputs ns) with
    | outputs o => intro _; rfl
    | nonBits ws => intro hs; cases hs.2

/-- The views of a bench agree, whatever the draws. -/
theorem nodes_same (k k' : Nat) (bench : List Instance) (m : Name) : SameAt m (nodes k bench) (nodes k' bench) := by
  induction bench generalizing m with
  | nil => exact .none
  | cons x rest ih =>
    simp only [SameAt, nodes_cons, lookupName]
    split
    · exact .some (x.same _ _ fun _ _ m _ => ih m)
    · exact ih m

/-- What is true of a name's settled outputs depends on the bench alone. -/
theorem State.output_eq (s : State) (k : Nat) (n : Name) :
    s.output n = (lookupName n (nodes k s.bench)).bind Node.settled := (nodes_same s.draws k s.bench n).settled

end Sys2Proof.Machine
end

