-- ==== Sys2Proof/Tests/Slice0.lean ====
section
/-! SUPPORT. Checks of our own work: the spec's vectors, and a witness for the hypotheses of each statement. -/

namespace Sys2Proof.Tests

open Sys2Proof Sys2Proof.Machine

/-- A state with one pending action. -/
def pending (act : Action) (bench : List Instance := []) (now : Nat := 0) : State :=
  { State.reset with actions := [act], bench := bench, now := now }

/-- A component the host drives with the levels of `i` since time `t`. -/
def drivenSince (n : Name) (i : Instr) (t : Nat := 0) (settledOnce : Bool := false) : Instance :=
  { name := n, source := .driven (.ofInstr i), changedAt := t, settledOnce := settledOnce }

/-- A component nothing has driven since power-up. -/
def poweredUp (n : Name) (c : Component) : Instance :=
  { name := n, source := .powerUp c, changedAt := 0, settledOnce := false }

/-- A half adder one input of which is wired to the sum of n. -/
def wiredTo (n name : Name) : Instance :=
  { name := name, source := .driven (.ha (.sum n) (.lit [.one])), changedAt := 0, settledOnce := false }

/-- What a step sampled, if it went on. -/
def sampledBy : Host.Outcome State Fault Refusal → Option Outputs
  | .next t => t.sampled
  | .fault _ => none
  | .refused _ => none

/-- The wires a fault names. -/
def faultWires : Host.Outcome State Fault Refusal → List Wire
  | .next _ => []
  | .fault (.nonBinaryInput ws) => ws
  | .refused _ => []

/-- The fault marks after a step, if it went on. -/
def marks : Host.Outcome State Fault Refusal → List (Name × Fault)
  | .next t => t.faults
  | .fault _ => []
  | .refused _ => []

/-- Why a step was refused. -/
def refusal : Host.Outcome State Fault Refusal → Option Refusal
  | .next _ => none
  | .fault _ => none
  | .refused r => some r

/-- The sources of the instances after a step, newest first, and what n then settles to, if the step went on. -/
def wiring (n : Name) : Host.Outcome State Fault Refusal → Option (List Source × Option Outputs)
  | .next t => some (t.bench.map Instance.source, t.output n)
  | .fault _ => none
  | .refused _ => none

/-- All wires of a bus at one level. -/
def allWires (l : Level) : List Level := List.replicate wordWidth l

/-- A bus of zeros but for one wire. -/
def oneWire (i : Nat) (l : Level) : List Level := (allWires .zero).set i l

/-! ### WellFormed refuses each ill-formed term -/

theorem test_wellFormed_short_a : Instr.wellFormed (.add32 [.zero] (allWires .zero)) = false := by decide
theorem test_wellFormed_long_b : Instr.wellFormed (.add32 (allWires .zero) (.one :: allWires .zero)) = false := by decide

/-! ### Decoding: vectors written out from R32 to R34, programs P1 to P4 -/

/-- P4: HA `10` has a = 1, b = 0 (R32). -/
theorem test_decode_ha : decode .halfAdder [.zero, .one] = .ok (.ha .one .zero) ∧
    decodeTableWord 2 0b10 = some (.ha .one .zero) ∧ encode (.ha .one .zero) = [.zero, .one] := by decide
/-- A vector of another width is refused by name (R36). -/
theorem test_decode_ha_wide :
    decode .halfAdder [.zero, .one, .one] = .error (.wrongWidth .halfAdder 2 3) := rfl
/-- P1: FA `101` has a = 1, b = 0, carryIn = 1 (R33); `110` tells b from carryIn. -/
theorem test_decode_fa : decodeTableWord 3 0b101 = some (.fa .one .zero .one) ∧
    decodeTableWord 3 0b110 = some (.fa .one .one .zero) ∧ encode (.fa .one .one .zero) = [.zero, .one, .one] := by decide
/-- P3: ADD32 `0xFFFFFFFC_00000001` has a in bits 63:32 (R34). -/
theorem test_decode_add32 :
    decodeTableWord 64 0xFFFFFFFC00000001 = some (.add32 (busOf 0xFFFFFFFC#32) (busOf 0x00000001#32)) := by decide
/-- A number with more bits than its width, and a width of no component, are refused. -/
theorem test_decode_refuses : decodeTableWord 2 4 = none ∧ decodeTableWord 5 0 = none ∧ decodeTableWord 8 8 = none := by decide

/-! ### The spec's vectors, one step each (95_test_vectors.md) -/

/-- S3: `halfAdd(1,1)=(0,1)`, as the first step from reset. -/
theorem test_ha_one_one : sampledBy (step (State.reset.withFetchWord 2 0b11)) = some (.halfAdder .zero .one) := by decide
/-- F1: a undriven, b = 0. -/
theorem test_ha_undriven : faultWires (execHa .undriven .zero .reset) = [.scalar .a] := by decide
/-- S6: `fullAdd(1,0,1)=(0,1)`. -/
theorem test_fa_one_zero_one : sampledBy (step (State.reset.withFetchWord 3 0b101)) = some (.fullAdder .zero .one) := by decide
/-- F2: carryIn unknown; the carry is not answered though it would be 1 for either bit. -/
theorem test_fa_unknown_carryIn : faultWires (execFa .one .one .unknown .reset) = [.scalar .carryIn] := by decide
/-- V13: 0xDEADBEEF + 0x21524111 = 0, all carry nets 1. -/
theorem test_add32_wraps :
    sampledBy (step (State.reset.withFetchWord 64 0xDEADBEEF21524111)) = some (.adder (busOf 0x00000000#32)) ∧
    bitsOf (carryNet 0xDEADBEEF#32 0x21524111#32) 32 = 0xFFFFFFFF#32 := by decide
/-- F4: a[0] and b[31] unknown: one fault that lists both. -/
theorem test_add32_lists_both :
    faultWires (execAdd32 (oneWire 0 .unknown) (oneWire 31 .unknown) .reset) = [.bus .a 0, .bus .b 31] := by decide
/-- S10: `toBitString(5)`. -/
theorem test_toBitString : toBitString 32 5 = "00000000000000000000000000000101".toList := by decide
/-- P1, line 2: `f1 = FA 1, 0, h0.carry` where h0 = HA 1, 1. -/
theorem test_line_reads_a_binding :
    sampledBy (step (pending (.stimulus ⟨"f1", .fa (.lit [.one]) (.lit [.zero]) (.carry "h0")⟩)
      [drivenSince "h0" (.ha .one .one)])) = some (.fullAdder .zero .one) := by decide

/-- P1, lines 1 and 2: h0 = HA 1, 1 and f1 = FA 1, 0, h0.carry wired to it. -/
def p1Bench : List Instance :=
  [{ name := "f1", source := .driven (.fa (.lit [.one]) (.lit [.zero]) (.carry "h0")), changedAt := 0, settledOnce := false },
    drivenSince "h0" (.ha .one .one)]

/-- R22: with `a` of f1 changed to 0 its carryIn still reads h0.carry, which is 1: 0 + 0 + 1 is sum 1, carry 0. -/
theorem test_change_keeps_the_wire : wiring "f1" (step (pending (.change "f1" .a (.lit [.zero])) p1Bench)) =
    some ([.driven (.fa (.lit [.zero]) (.lit [.zero]) (.carry "h0")), .driven (.ofInstr (.ha .one .one))],
      some (.fullAdder .one .zero)) := by decide
/-- R22: changing `b` of h0 to 0 takes its carry, and so the carryIn of f1, to 0: 1 + 0 + 0. -/
theorem test_change_reaches_downstream :
    (wiring "f1" (step (pending (.change "h0" .b (.lit [.zero])) p1Bench))).map Prod.snd = some (some (.fullAdder .one .zero)) := by
  decide

/-- R23, R58: the fault of one half adder (F1) is marked, and the next line, of another one, is evaluated as it is without it. -/
theorem test_fault_ends_its_evaluation_only :
    marks (core.run 2 { State.reset with actions := [.stimulus ⟨"h", .ha (.lit [.undriven]) (.lit [.zero])⟩,
      .stimulus ⟨"k", .ha (.lit [.one]) (.lit [.zero])⟩] }) = [("h", .nonBinaryInput [.scalar .a])] ∧
    sampledBy (core.run 2 { State.reset with actions := [.stimulus ⟨"h", .ha (.lit [.undriven]) (.lit [.zero])⟩,
      .stimulus ⟨"k", .ha (.lit [.one]) (.lit [.zero])⟩] }) = some (.halfAdder .one .zero) := by decide
/-- T3: at power-up each output bit of a half adder is a draw, and so is what its wires carry. -/
theorem test_power_up_is_drawn :
    (pending (.sample "h")).sampleInstance (poweredUp "h" .halfAdder) [] = .next ((pending (.sample "h")).sampleDrawn 0 .halfAdder) ∧
    ((pending (.sample "h")).sampleDrawn 0 .halfAdder).sampled =
      some (.halfAdder (Config.freeLevel 0) (Config.freeLevel 1)) ∧
    (Operand.carry "h").levels (nodes 0 [poweredUp "h" .halfAdder]) = [Config.freeLevel 1] :=
  ⟨sampleInstance_drawn rfl (by decide), rfl, rfl⟩
/-- R63: a half adder only one input of which was ever driven gives draws too, at any time. -/
theorem test_partly_driven_is_drawn (now : Nat) :
    (pending (.sample "h") [] now).sampleInstance (drivenSince "h" (.ha .one .undriven)) [] =
      .next ((pending (.sample "h") [] now).sampleDrawn 0 .halfAdder) :=
  sampleInstance_drawn rfl (show ¬ AllBits (.ha .one .undriven) by decide)

/-! ### The text of a line (R37), from P3 and P4 -/

theorem test_parse_not : parseLine "n = ADD32 NOT(0x00000003), 0x00000001 ; -3".toList =
    some ⟨"n", .add32 (.inv (.lit (busOf 0x00000003#32))) (.lit (busOf 0x00000001#32))⟩ := by decide
theorem test_parse_references : parseLine "k = HA x.sum, s.sum[31]".toList = some ⟨"k", .ha (.sum "x") (.sumBit "s" 31)⟩ := by
  decide
theorem test_parse_refuses_two : parseLine "k = HA 2, 1".toList = none := by decide

/-! ### Witnesses: for each statement with hypotheses, a state and operands that meet them, one for each clause -/

theorem witness_HalfAdderEvaluation :
    Level.one.isBit = true ∧ Level.zero.isBit = true ∧ (Level.undriven.isBit = false ∨ Level.zero.isBit = false) := by decide
theorem witness_FullAdderEvaluation : Level.one.isBit = true ∧ Level.zero.isBit = true ∧
    (Level.zero.isBit = false ∨ Level.one.isBit = false ∨ Level.floating.isBit = false) := by decide
theorem witness_RippleChainStructure : 0 < 1 ∧ 0 < 32 ∧ 30 + 1 < 32 := by decide
theorem witness_RippleAdderEvaluation :
    (allWires .one).length = wordWidth ∧
    (∀ i, i < wordWidth → (busWire (allWires .one) i).isBit = true ∧ (busWire (allWires .zero) i).isBit = true) ∧
    (∃ i, i < wordWidth ∧
      ((busWire (allWires .one) i).isBit = false ∨ (busWire (oneWire 31 .intermediate) i).isBit = false)) ∧ 0 < 1 := by
  refine ⟨by decide, by decide, ⟨31, by decide, by decide⟩, by decide⟩
theorem witness_StageTakesItsOwnBits : 0 < wordWidth ∧ 31 < wordWidth := by decide
theorem witness_SumWidthAndDiscardedCarry : 2 ≤ 2 ∧ 2 ≤ 32 ∧
    (uval (0xFFFFFFFF#32) + uval (0x00000001#32)) % 2 ^ wordWidth = (uval (0#32) + uval (0#32)) % 2 ^ wordWidth := by decide
/-- V7, V9 and V14: the k of the law is -1, 1 and 0. -/
theorem witness_SignedSumWraps : 0 < 32 ∧
    signedWrap 0x7FFFFFFF#32 0x00000001#32 = -1 ∧ signedWrap 0x80000000#32 0xFFFFFFFF#32 = 1 ∧
    signedWrap 0x00000005#32 0x00000003#32 = 0 ∧
    -2 ^ (32 - 1) ≤ sval 0x7FFFFFFF#32 + sval 0x00000001#32 + -1 * 2 ^ 32 ∧
    sval 0x7FFFFFFF#32 + sval 0x00000001#32 + -1 * 2 ^ 32 < 2 ^ (32 - 1) := by decide
theorem witness_CarryNets : 31 < 32 ∧ 1 ≤ 31 ∧ 0 < 1 := by decide
theorem witness_NoCarryIn (a b : Word) : ∃ f : Nat → SumCarry,
    f 0 = fullAdd (a.getLsbD 0) (b.getLsbD 0) false ∧
    (∀ i, f (i + 1) = fullAdd (a.getLsbD (i + 1)) (b.getLsbD (i + 1)) (f i).carry) ∧ 31 < wordWidth :=
  ⟨fun i => i.rec (fullAdd (a.getLsbD 0) (b.getLsbD 0) false)
    fun k r => fullAdd (a.getLsbD (k + 1)) (b.getLsbD (k + 1)) r.carry, rfl, fun _ => rfl, by decide⟩
theorem witness_SumBitDependsOnBitsBelow : 3 < 32 ∧ 0 ≤ 3 ∧ 3 ≤ 3 ∧
    ∀ j, j ≤ 3 → (0x10#32).getLsbD j = (0xF0#32).getLsbD j ∧ (0x01#32).getLsbD j = (0x21#32).getLsbD j := by decide
theorem witness_DecodeEncodeAgree :
    Instr.wellFormed (.ha .one .unknown) = true ∧ Instr.wellFormed (.fa .one .zero .floating) = true ∧
    Instr.wellFormed (.add32 (allWires .one) (oneWire 31 .undriven)) = true := by decide
theorem witness_DecodesExactlyTheWidth : [Level.one, .zero].length = inputWidth .halfAdder ∧
    [Level.one, .zero].length ≠ inputWidth .fullAdder ∧
    (List.replicate 64 Level.one).length = inputWidth .rippleCarryAdder32 ∧
    (List.replicate 63 Level.one).length ≠ inputWidth .rippleCarryAdder32 := by decide
theorem witness_FormatsOfTheVectors :
    (allWires .one).length = wordWidth ∧ (oneWire 0 .one).length = wordWidth ∧ 31 < wordWidth := by decide
theorem witness_EveryBitVectorIsLegal : 3 < 2 ^ inputWidth .halfAdder ∧ 7 < 2 ^ inputWidth .fullAdder ∧
    0xFFFFFFFFFFFFFFFF < 2 ^ inputWidth .rippleCarryAdder32 ∧
    (∃ i, decodeBits .fullAdder (inputWidth .fullAdder) 7 = some i) := ⟨by decide, by decide, by decide, _, rfl⟩
theorem witness_NonBinaryInputFaults :
    (Wire.bus .b 31, Level.floating) ∈ inputWires (.add32 (allWires .zero) (oneWire 31 .floating)) ∧
    Level.floating.isBit = false := by decide
theorem witness_BitsRaiseNothing : ∀ w l, (w, l) ∈ inputWires (.fa .one .zero .one) → l.isBit = true := by
  rw [← allBits_iff]; decide
/-- A line with a wire that is no bit, and a sample of a component that had settled before such a wire was driven. -/
theorem witness_StepFaultsOnlyForNonBits :
    (Wire.scalar .a, Level.undriven) ∈ inputWires (.ha .undriven .zero) ∧ Level.undriven.isBit = false ∧
    (∃ t, step (pending (.stimulus ⟨"h", .ha (.lit [.undriven]) (.lit [.zero])⟩)) = .next t ∧
      t.faults = [("h", .nonBinaryInput [.scalar .a])]) ∧
    ∃ t, step (pending (.sample "h") [drivenSince "h" (.ha .one .floating) 0 true] (Config.tSettle .halfAdder)) = .next t :=
  ⟨by decide, rfl, ⟨_, rfl, rfl⟩, sampleInstance_goes_on _ "h" (drivenSince "h" (.ha .one .floating) 0 true) []⟩
theorem witness_FaultedLineIsMarked :
    (Call.ha (.lit [.undriven]) (.lit [.zero])).check (shapes State.reset.bench) = none ∧
    decode .halfAdder ((Call.ha (.lit [.undriven]) (.lit [.zero])).vector State.reset.look) = .ok (.ha .undriven .zero) ∧
    (Wire.scalar .a, Level.undriven) ∈ inputWires (.ha .undriven .zero) ∧ Level.undriven.isBit = false := by decide
theorem witness_FaultMarksAreNeverCleared : ∃ t,
    core.run 1 { pending (.stimulus ⟨"h", .ha (.lit [.one]) (.lit [.zero])⟩) with faults := [("g", .nonBinaryInput [.scalar .b])] } =
      .next t := ⟨_, rfl⟩
/-- Also the witness of EvaluationIsIdempotent. -/
theorem witness_EvaluationFrame : ∃ t, exec (.ha .one .zero) .reset = .next t := ⟨_, rfl⟩

/-- A bench of a half adder h and a full adder f; no component is wired to another. -/
def twoComponents : List Instance := [drivenSince "f" (.fa .one .zero .one), drivenSince "h" (.ha .one .one)]

/-- The same with a half adder w wired to h, and a half adder v wired to w. -/
def chained : List Instance := wiredTo "w" "v" :: wiredTo "h" "w" :: twoComponents

/-- Driving h reaches w and, through it, v, but not f. -/
theorem witness_InstancesAreIndependent :
    (∃ t, step (pending (.stimulus ⟨"k", .ha (.sum "h") (.lit [.one])⟩) twoComponents) = .next t) ∧
    (∃ t, step (pending (.stimulus ⟨"k", .ha (.sum "h") (.lit [.floating])⟩) twoComponents) = .next t) ∧
    (∃ t, step (pending (.powerUp "k" .fullAdder) twoComponents) = .next t) ∧
    (∃ t, step (pending (.drive "h" .halfAdder [.zero, .one]) chained) = .next t) ∧
    (∃ t, step (pending (.change "h" .b (.lit [.zero])) chained) = .next t) ∧
    (∃ t, step (pending (.sample "p") (poweredUp "p" .halfAdder :: twoComponents)) = .next t) ∧
    lookupName "f" (dependents "h" chained) ≠ some true ∧ lookupName "v" (dependents "h" chained) = some true ∧
    ("f" : Name) ≠ "h" ∧ ("h" : Name) ≠ "k" ∧ ("h" : Name) ≠ "p" :=
  ⟨⟨_, rfl⟩, ⟨_, rfl⟩, ⟨_, rfl⟩, ⟨_, rfl⟩, ⟨_, rfl⟩, sampleInstance_goes_on _ "p" (poweredUp "p" .halfAdder) twoComponents,
    by decide, by decide, by decide, by decide, by decide⟩

/-- A line whose carryIn is wired to h. -/
def wiredLine : Line := ⟨"g", .fa (.lit [.one]) (.sum "f") (.carry "h")⟩

/-- Also the witness of CheckedLineDecodes and, where what the line refers to settles, of StepRunsDecodedLine. -/
theorem witness_StimulusLineCompletes : wiredLine.call.check (shapes twoComponents) = none ∧
    wiredLine.call.steady (pending (.stimulus wiredLine) twoComponents).look = true ∧
    decode wiredLine.call.component (wiredLine.call.vector (pending (.stimulus wiredLine) twoComponents).look) =
      .ok (.fa .one .zero .one) ∧ AllBits (.fa .one .zero .one) := ⟨by decide, rfl, rfl, by decide⟩
/-- A line wired to a component that nothing drives; also the other witness of StepRunsDecodedLine. A wire that is no bit beside it. -/
theorem witness_LineOnUnsettledWires :
    (Call.ha (.lit [.one]) (.sum "p")).check (shapes [poweredUp "p" .halfAdder]) = none ∧
    (Call.ha (.lit [.one]) (.sum "p")).steady (nodes 0 [poweredUp "p" .halfAdder]) = false ∧
    decode .halfAdder ((Call.ha (.lit [.one]) (.sum "p")).vector (nodes 0 [poweredUp "p" .halfAdder])) =
      .ok (.ha .one (Config.freeLevel 0)) ∧ ¬ AllBits (.ha .floating (Config.freeLevel 0)) :=
  ⟨by decide, rfl, rfl, by simp [allBits_ha, Level.isBit]⟩
/-- The first line faults, the second is wired to f and h. -/
theorem witness_EvaluationsAreIndependent : ∃ s : State,
    s.actions = [.stimulus ⟨"k", .ha (.lit [.undriven]) (.lit [.zero])⟩, .stimulus wiredLine] ∧
    wiredLine.call.refersTo "k" = false ∧ wiredLine.call.steady s.look = true ∧ (∃ t, step s = .next t) ∧
    ∃ u, step { s with actions := [.stimulus wiredLine] } = .next u :=
  ⟨{ State.reset with
      actions := [.stimulus ⟨"k", .ha (.lit [.undriven]) (.lit [.zero])⟩, .stimulus wiredLine]
      bench := twoComponents }, rfl, by decide, rfl, ⟨_, rfl⟩, ⟨_, rfl⟩⟩
/-- A bound half adder, full adder and ripple adder, and an operand that reads bits. -/
theorem witness_OperandsReadTheirWires :
    (pending (.hold 0) twoComponents).output "h" = some (.halfAdder .zero .one) ∧
    (pending (.hold 0) twoComponents).output "f" = some (.fullAdder .zero .one) ∧
    (pending (.hold 0) [drivenSince "s" (.add32 (allWires .one) (oneWire 0 .one))]).output "s" = some (.adder (allWires .zero)) ∧
    31 < wordWidth ∧ (Operand.carry "h").levels (pending (.hold 0) twoComponents).look = [true].map Level.ofBit := by decide
theorem witness_LinePresentsItsOperands :
    (Operand.lit [.one]).levels State.reset.look = [.one] ∧ (Operand.lit [.floating]).levels State.reset.look = [.floating] ∧
    ((Operand.lit (allWires .one)).levels State.reset.look).length = wordWidth := by decide
/-- The instance w of `chained` stands behind v and is wired to h; and a line placed on a bench. -/
theorem witness_DownstreamSettlesAfterUpstream : chained = [wiredTo "w" "v"] ++ wiredTo "h" "w" :: twoComponents ∧
    (wiredTo "h" "w").source = .driven (.ha (.sum "h") (.lit [.one])) ∧
    Call.refersTo "h" (.ha (.sum "h") (.lit [.one])) = true ∧
    (∃ e, (pending (.hold 0) chained).look[1]? = some ("w", e)) ∧
    (∃ d, lookupName "h" ((pending (.hold 0) chained).look.drop 2) = some d) ∧
    (∃ t, (wiredTo "h" "w").changedAt + Config.tSettle (.halfAdder) ≤ t) ∧
    wiredLine.call.refersTo "h" = true ∧ (∃ d, lookupName "h" (pending (.stimulus wiredLine) twoComponents).look = some d) ∧
    ∃ e, lookupName wiredLine.name ((pending (.stimulus wiredLine) twoComponents).place wiredLine).look = some e :=
  ⟨rfl, rfl, by decide, ⟨_, rfl⟩, ⟨_, rfl⟩, ⟨_, Nat.le_refl _⟩, by decide, ⟨_, rfl⟩, ⟨_, rfl⟩⟩
/-- Driving h, to which w is wired, with other levels. -/
theorem witness_RedrivingUnsettlesDownstream : decode .halfAdder [.zero, .one] = .ok (.ha .one .zero) ∧
    lookupName "h" (chained.map fun x => (x.name, x.source)) ≠ some (.driven (.ofInstr (.ha .one .zero))) ∧
    ∃ (t : State) (y : Instance) (older : List Instance) (e : Node),
      step (pending (.drive "h" .halfAdder [.zero, .one]) chained) = .next t ∧
      t.bench.map Instance.name = ["v", "w", "f", "h"] ∧ t.bench[1]? = some y ∧ t.bench.drop 2 = older ∧
      y.source = .driven (.ha (.sum "h") (.lit [.one])) ∧ y.name ≠ "h" ∧ t.look[1]? = some (y.name, e) :=
  ⟨by decide, by decide, _, _, _, _, rfl, by decide, rfl, rfl, rfl, by decide, rfl⟩
/-- Changing one input of h. -/
theorem witness_RedrivingUnsettlesDownstream_change : ∃ (t : State) (y : Instance) (e : Node),
    step (pending (.change "h" .b (.lit [.zero])) chained) = .next t ∧ lookupName "h" (shapes chained) = some .halfAdder ∧
    lookupName "h" (t.bench.map fun x => (x.name, x.source)) ≠ lookupName "h" (chained.map fun x => (x.name, x.source)) ∧
    t.bench[1]? = some y ∧ y.source = .driven (.ha (.sum "h") (.lit [.one])) ∧ y.name ≠ "h" ∧ t.look[1]? = some (y.name, e) :=
  ⟨_, _, _, rfl, by decide, by decide, rfl, rfl, by decide, rfl⟩
/-- A wired port, an operand already there, and a port of a component that nothing drives. -/
theorem witness_ChangingOneInputKeepsTheOthers :
    chained = [wiredTo "w" "v"] ++ wiredTo "h" "w" :: twoComponents ∧ (wiredTo "w" "v").name ≠ "w" ∧
    (wiredTo "h" "w").source.call.ports = [] ++ (.a, 1, .sum "h") :: [(.b, 1, .lit [.one])] ∧
    (Operand.inv (.carry "f")).Fits (shapes twoComponents) 1 ∧ (Operand.sum "h").Fits (shapes twoComponents) 1 ∧
    (∀ z ∈ [wiredTo "w" "v"] ++ [wiredTo "h" "w"], (Operand.inv (.carry "f")).refersTo z.name = false ∧
      (Operand.sum "h").refersTo z.name = false) ∧
    (poweredUp "p" .fullAdder).source.call.ports =
      [(.a, 1, .lit [.undriven]), (.b, 1, .lit [.undriven])] ++ (.carryIn, 1, .lit [.undriven]) :: [] ∧
    (Operand.lit [.one]).Fits (shapes []) 1 :=
  ⟨rfl, by decide, rfl, ⟨rfl, .inr rfl⟩, .inl ⟨rfl, .inl rfl⟩, by decide, rfl, rfl⟩
/-- Each refusal: no component, no carryIn, itself, a newer one, two wires, a bus, an unbound name and one bound later. -/
theorem witness_MisfittingChangesAreRefused :
    refusal (step (pending (.change "z" .a (.lit [.one])) chained)) = some (.noSuchInstance "z") ∧
    lookupName "z" (shapes chained) = none ∧
    refusal (step (pending (.change "w" .carryIn (.lit [.one])) chained)) = some (.noSuchInput "w" .carryIn) ∧
    (wiredTo "h" "w").component ≠ .fullAdder ∧ (Port.a, 1, Operand.sum "h") ∈ (wiredTo "h" "w").source.call.ports ∧
    refusal (step (pending (.change "w" .a (.sum "w")) chained)) = some (.laterBinding "w") ∧
    refusal (step (pending (.change "w" .a (.carry "v")) chained)) = some (.laterBinding "v") ∧
    refusal (step (pending (.change "w" .a (.cat (.sum "f") (.sum "h"))) chained)) = some (.operandWidth .a 1 2) ∧
    refusal (step (pending (.change "w" .a (.carry "y")) chained)) = some (.unknownBinding "y") ∧
    refusal (step { pending (.hold 0) chained with actions := [.change "w" .a (.carry "y"), .powerUp "y" .halfAdder] }) =
      some (.laterBinding "y") ∧
    refusal (step (pending (.change "w" .a (.sumBit "h" 1)) chained)) = some (.noSuchBit "h" 1) := by decide
/-- `a` of f1 changes to 0, its carryIn wired to h0: the vector on its wires is then 001, and h0 is ready. -/
theorem witness_ChangeHoldSampleIsAnEvaluation : ∃ (s : State) (newer older : List Instance) (y : Instance) (call : Call) (d : Nat),
    s.Inv ∧ s.actions = [.change "f1" .a (.lit [.zero]), .hold d, .sample "f1"] ∧ s.bench = newer ++ y :: older ∧ y.name = "f1" ∧
    (∀ z ∈ newer, z.name ≠ "f1") ∧ y.source.call.setPort .a (.lit [.zero]) = some call ∧
    (Operand.lit [.zero]).Fits (shapes older) (portWidth y.component) ∧
    (∀ z ∈ newer ++ [y], (Operand.lit [.zero]).refersTo z.name = false) ∧ call.steady (nodes s.draws older) = true ∧
    call.readyAt (nodes s.draws older) ≤ s.now ∧ Config.tSettle call.component ≤ d ∧
    decode call.component (call.vector (nodes s.draws older)) = .ok (.fa .zero .zero .one) ∧ AllBits (.fa .zero .zero .one) := by
  refine ⟨{ pending (.hold 0) p1Bench (Config.tSettle .halfAdder) with
      actions := [.change "f1" .a (.lit [.zero]), .hold (Config.tSettle .fullAdder), .sample "f1"] }, [], _, _, _, _, ⟨rfl, ?_, ?_, ?_⟩,
    rfl, rfl, rfl, by simp, rfl, rfl, by simp [Operand.refersTo], rfl, ?_, Nat.le_refl _, rfl, by decide⟩
  · simp [pending, p1Bench, drivenSince]
  · simp [pending, p1Bench, drivenSince]
  · simp [pending, State.reset]
  · exact Nat.max_le.2 ⟨Nat.zero_le _, Nat.le_of_eq (Nat.zero_add _)⟩
/-- Everything `wiredLine` refers to settles; a line wired to a component that nothing drives has a reference that does not. -/
theorem witness_LineSettlesWithItsReferences : wiredLine.call.refersTo "h" = true ∧
    (pending (.hold 0) twoComponents).output "h" = some (.halfAdder .zero .one) ∧
    Call.refersTo "p" (.ha (.lit [.one]) (.sum "p")) = true ∧
    (pending (.hold 0) [poweredUp "p" .halfAdder]).output "p" = none := ⟨by decide, by decide, by decide, rfl⟩
/-- Boundary values: bit 31 of a ripple adder fits and bit 32 does not; a bus is no operand of HA. -/
theorem witness_LineGoesOnExactlyWhenItFits :
    (Call.ha (.sumBit "s" 31) (.lit [.one])).Fits [("s", .rippleCarryAdder32)] ∧
    (Call.add32 (.sum "s") (.inv (.sum "s"))).Fits [("s", .rippleCarryAdder32)] ∧
    ¬ (Call.ha (.sumBit "s" 32) (.lit [.one])).Fits [("s", .rippleCarryAdder32)] ∧
    ¬ (Call.ha (.sum "s") (.lit [.one])).Fits [("s", .rippleCarryAdder32)] := by
  simp [Call.Fits, Operand.Fits, lookupName]
/-- Each refusal, on the first port and behind one that fits; a sample of a name that is there and of one that is not. -/
theorem witness_MisfitsAreRefusedByName :
    (Call.ha (.lit [.one]) (.cat (.lit [.one]) (.carry "s"))).ports =
      [(.a, 1, .lit [.one])] ++ (.b, 1, .cat (.lit [.one]) (.carry "s")) :: [] ∧
    (Operand.lit [.one]).Fits [("s", .rippleCarryAdder32)] 1 ∧
    refusal (step (pending (.stimulus ⟨"k", .ha (.lit [.one]) (.cat (.lit [.one]) (.carry "s"))⟩)
      [drivenSince "s" (.add32 (allWires .one) (allWires .zero))])) = some (.noSuchPort "s") ∧
    refusal (step (pending (.stimulus ⟨"k", .ha (.inv (.sumBit "s" 32)) (.lit [.one])⟩)
      [drivenSince "s" (.add32 (allWires .one) (allWires .zero))])) = some (.noSuchBit "s" 32) ∧
    refusal (step (pending (.stimulus ⟨"k", .ha (.sumBit "h" 1) (.lit [.one])⟩) twoComponents)) = some (.noSuchBit "h" 1) ∧
    refusal (step (pending (.stimulus ⟨"k", .ha (.lit [.one]) (.lit [.one, .one])⟩))) = some (.operandWidth .b 1 2) ∧
    refusal (step (pending (.sample "z") twoComponents)) = some (.noSuchInstance "z") ∧
    lookupName "h" (shapes twoComponents) ≠ none :=
  ⟨rfl, rfl, by decide, by decide, by decide, by decide, by decide, by decide⟩
/-- An unknown name, a line's own name, a name a later action binds; and on another port, of another component, within other forms. -/
theorem witness_UnboundReferenceRefused :
    Call.refersTo "z" (.ha (.sum "z") (.lit [.one])) = true ∧ lookupName "z" (shapes twoComponents) = none ∧
    (Call.ha (.sum "z") (.lit [.one])).check (shapes twoComponents) = some (.unknownBinding "z") ∧
    refusal (step (pending (.stimulus ⟨"k", .ha (.sum "z") (.lit [.one])⟩) twoComponents)) = some (.unknownBinding "z") ∧
    refusal (step (pending (.stimulus ⟨"z", .ha (.sum "z") (.lit [.one])⟩) twoComponents)) = some (.laterBinding "z") ∧
    refusal (step { State.reset with actions := [.stimulus ⟨"k", .ha (.sum "z") (.lit [.one])⟩,
      .stimulus ⟨"z", .ha (.lit [.one]) (.lit [.one])⟩] }) = some (.laterBinding "z") ∧
    refusal (step (pending (.stimulus ⟨"k", .fa (.sum "h") (.carry "f") (.inv (.carry "z"))⟩) twoComponents)) =
      some (.unknownBinding "z") ∧
    refusal (step (pending (.stimulus ⟨"k", .add32 (.cat (.sum "h") (.sumBit "z" 0)) (.sum "z")⟩) twoComponents)) =
      some (.unknownBinding "z") := by decide
theorem witness_UnboundReferenceRefused_ports :
    (Call.fa (.sum "h") (.carry "f") (.inv (.carry "z"))).ports =
      [(.a, 1, .sum "h"), (.b, 1, .carry "f")] ++ (.carryIn, 1, .inv (.carry "z")) :: [] ∧
    ∀ q ∈ [(Port.a, 1, Operand.sum "h"), (.b, 1, .carry "f")],
      q.2.2.check (shapes twoComponents) = none ∧ q.2.2.width (shapes twoComponents) = q.2.1 := by decide
theorem witness_StepRunsFetchedWord : decodeTableWord 8 0b11 = some (.ha .one .one) ∧
    decodeTableWord 8 0b101 = some (.fa .one .zero .one) ∧
    decodeTableWord 64 0 = some (.add32 (allWires .zero) (allWires .zero)) := by decide
theorem witness_IdleStepChangesNothing : State.reset.actions = [] := rfl
theorem witness_HoldAndPowerUp : (pending (.hold 3)).actions = [.hold 3] ∧
    (pending (.powerUp "h" .halfAdder)).actions = [.powerUp "h" .halfAdder] := ⟨rfl, rfl⟩
/-- A name that is there, driven by other levels and by the same, and one that is not there. -/
theorem witness_DriveChecksTheWidth : (pending (.drive "h" .halfAdder [.one])).actions = [.drive "h" .halfAdder [.one]] ∧
    [Level.one].length ≠ inputWidth .halfAdder ∧ [Level.one, .floating].length = inputWidth .halfAdder ∧
    twoComponents = [drivenSince "f" (.fa .one .zero .one)] ++ drivenSince "h" (.ha .one .one) :: [] ∧
    (∀ y ∈ [drivenSince "f" (.fa .one .zero .one)], y.name ≠ "h") ∧ (drivenSince "h" (.ha .one .one)).component = .halfAdder ∧
    decode .halfAdder [.one, .one] = .ok (.ha .one .one) ∧ lookupName "z" (shapes twoComponents) ≠ some .halfAdder := by decide

/-- h is ready at the settle time of a half adder, and is sampled just then. -/
theorem witness_SampleBeforeAndAfterSettling_settled (i : Instr) (b : Bool) (hi : i = .ha .one .one ∨ i = .ha .one .floating) :
    ∃ (s : State) (x : Instance) (d : Node), s.actions = [.sample "h"] ∧ s.bench = [] ++ x :: [] ∧ x.name = "h" ∧
      x.settledOnce = b ∧ lookupName "h" s.look = some d ∧ d.steady = true ∧ d.readyAt ≤ s.now ∧ d.result = ruleResult i := by
  refine ⟨pending (.sample "h") [drivenSince "h" i 0 b] (Config.tSettle i.component), _, _, rfl, rfl, rfl, rfl, rfl, ?_, ?_, ?_⟩
  · rcases hi with rfl | rfl <;> rfl
  · rcases hi with rfl | rfl <;> exact Nat.le_of_eq (Nat.zero_add _)
  · rcases hi with rfl | rfl <;> rfl
theorem witness_SampleBeforeAndAfterSettling_results : ruleResult (.ha .one .one) = .outputs (.halfAdder .zero .one) ∧
    ruleResult (.ha .one .floating) = .nonBits [.scalar .b] := by decide
/-- Its inputs change at time 1, after now, so it is ready later than now whatever its settle time; and one that never settles. -/
theorem witness_SampleBeforeAndAfterSettling_unsettled :
    (∃ d, lookupName "h" (nodes 0 [drivenSince "h" (.ha .one .one) 1]) = some d ∧ 0 < d.readyAt) ∧
    ∃ d, lookupName "w" (nodes 0 [wiredTo "p" "w", poweredUp "p" .halfAdder]) = some d ∧ d.steady = false :=
  ⟨⟨_, rfl, Nat.lt_of_lt_of_le Nat.zero_lt_one (Nat.le_add_right 1 _)⟩, ⟨_, rfl, rfl⟩⟩
/-- One that nothing drives, and one of whose inputs one is driven. -/
theorem witness_PowerUpSampleIsDrawn : (poweredUp "h" .halfAdder).source = .powerUp .halfAdder ∧
    (poweredUp "h" .halfAdder).settledOnce = false ∧ (drivenSince "h" (.ha .one .undriven)).settledOnce = false ∧
    ¬ AllBits ((drivenSince "h" (.ha .one .undriven)).inputs (nodes 0 [])) := by decide
theorem witness_SettlingIsRemembered : [Level.zero, .one].length = inputWidth .halfAdder ∧
    lookupName "h" (shapes twoComponents) = some .halfAdder ∧
    (∃ t, step (pending (.change "h" .b (.lit [.zero])) twoComponents) = .next t) ∧
    twoComponents = [drivenSince "f" (.fa .one .zero .one)] ++ drivenSince "h" (.ha .one .one) :: [] :=
  ⟨rfl, by decide, ⟨_, rfl⟩, rfl⟩
/-- A bench that drives h otherwise, and one that has no h. -/
theorem witness_InputChangeRestartsSettling : decode .halfAdder [.zero, .one] = .ok (.ha .one .zero) ∧
    lookupName "h" (twoComponents.map fun x => (x.name, x.source)) ≠ some (.driven (.ofInstr (.ha .one .zero))) ∧
    lookupName "h" (([] : List Instance).map fun x => (x.name, x.source)) ≠ some (.driven (.ofInstr (.ha .one .zero))) := by
  decide
theorem witness_DriveHoldSampleIsAnEvaluation : ∃ (s : State) (d : Nat), s.Inv ∧
    s.actions = [.drive "h" .halfAdder [.zero, .one], .hold d, .sample "h"] ∧ Config.tSettle .halfAdder ≤ d ∧
    decode .halfAdder [.zero, .one] = .ok (.ha .one .zero) ∧ AllBits (.ha .one .zero) :=
  ⟨{ State.reset with actions := [.drive "h" .halfAdder [.zero, .one], .hold (Config.tSettle .halfAdder), .sample "h"] }, _,
    ⟨rfl, by simp [State.reset], by simp [State.reset], by simp [State.reset]⟩, rfl, Nat.le_refl _, rfl, by decide⟩
theorem witness_SettledComponentFaultsOnNonBits : ∃ (s : State) (d : Nat), s.Inv ∧
    s.actions = [.drive "h" .halfAdder [.zero, .one], .hold d, .drive "h" .halfAdder [.floating, .one], .hold d, .sample "h"] ∧
    Config.tSettle .halfAdder ≤ d ∧ decode .halfAdder [.zero, .one] = .ok (.ha .one .zero) ∧ AllBits (.ha .one .zero) ∧
    decode .halfAdder [.floating, .one] = .ok (.ha .one .floating) ∧ ¬ AllBits (.ha .one .floating) :=
  ⟨{ State.reset with
      actions := [.drive "h" .halfAdder [.zero, .one], .hold (Config.tSettle .halfAdder), .drive "h" .halfAdder [.floating, .one],
        .hold (Config.tSettle .halfAdder), .sample "h"] }, _,
    ⟨rfl, by simp [State.reset], by simp [State.reset], by simp [State.reset]⟩, rfl, Nat.le_refl _, rfl, by decide, rfl, by decide⟩
/-- A wired bench that goes on to add a component wired to it. -/
theorem witness_StepKeepsTheNetlist : State.Inv (pending (.stimulus wiredLine) twoComponents) ∧
    ∃ t, step (pending (.stimulus wiredLine) twoComponents) = .next t :=
  ⟨⟨rfl, by decide, by simp [pending, twoComponents, drivenSince], by simp [pending, State.reset]⟩, ⟨_, rfl⟩⟩
theorem witness_RenderingReadsBack : 0 < 32 ∧ 31 < 32 ∧ '1' ∈ render (5#32) := by decide
theorem witness_IntegerReadings : 0 < 1 ∧ 0 < 32 ∧ (uval (5#32) : Int) = 5 % 2 ^ 32 := by decide

end Sys2Proof.Tests
end

section
/-! Buses as integers and as text (R9, R10): `uval` and `sval` are the core readings `toNat` and `toInt`, and the first m characters of a
rendering read as the top m bits of the bus. -/

namespace Sys2Proof.Machine

variable {w : Nat}

/-! ### The integer readings (R9) -/

theorem uval_lt (x : BitVec w) : uval x < 2 ^ w := by
  rw [uval_eq_toNat]
  exact x.isLt

theorem uval_injective {x y : BitVec w} (h : uval x = uval y) : x = y :=
  BitVec.eq_of_toNat_eq (by rwa [uval_eq_toNat, uval_eq_toNat] at h)

theorem sval_eq_toInt (x : BitVec w) : sval x = x.toInt := by
  rw [sval, uval_eq_toNat, BitVec.toInt_eq_msb_cond, BitVec.msb_eq_getLsbD_last]
  cases x.getLsbD (w - 1) <;> simp

theorem uval_enc (w : Nat) (n : Int) : (uval (enc w n) : Int) = n % 2 ^ w := by
  rw [uval_eq_toNat, enc, BitVec.toNat_ofInt, Nat.cast_pow, Nat.cast_ofNat,
    Int.toNat_of_nonneg (Int.emod_nonneg n (by positivity))]

theorem eq_enc_of_uval {x : BitVec w} {n : Int} (h : (uval x : Int) = n % 2 ^ w) : x = enc w n :=
  uval_injective (Int.natCast_inj.mp (h.trans (uval_enc w n).symm))

/-- Settles O46: the readings are `toNat` and `toInt`, whose ranges are known, and a bus is fixed by its unsigned value. -/
theorem integerReadings : Obligations.IntegerReadings := by
  intro w x _
  have hlow : -2 ^ (w - 1) ≤ sval x := sval_eq_toInt x ▸ x.le_toInt
  have hhigh : sval x < 2 ^ (w - 1) := sval_eq_toInt x ▸ x.toInt_lt
  exact ⟨rfl, uval_lt x, rfl, hlow, hhigh, uval_enc w, fun _ => eq_enc_of_uval, by decide, by decide⟩

/-! ### The rendering (R10) -/

@[simp] theorem length_render (x : BitVec w) : (render x).length = w := by simp [render]

theorem getElem?_render (x : BitVec w) {k : Nat} (h : k < w) :
    (render x)[k]? = some (if x.getLsbD (w - 1 - k) then '1' else '0') := by
  simp [render, h]

theorem mem_render {x : BitVec w} {ch : Char} (h : ch ∈ render x) : ch = '0' ∨ ch = '1' := by
  obtain ⟨k, -, rfl⟩ := List.mem_map.mp h
  split
  · exact .inr rfl
  · exact .inl rfl

/-- A further digit doubles what was read before it. -/
theorem numeral_append_digit (text : List Char) (b : Bool) :
    numeral (text ++ [if b then '1' else '0']) = 2 * numeral text + b.toNat := by
  rw [numeral, List.foldl_concat, ← numeral]
  cases b <;> rfl

theorem take_succ_render (x : BitVec w) {m : Nat} (h : m < w) :
    (render x).take (m + 1) = (render x).take m ++ [if x.getLsbD (w - 1 - m) then '1' else '0'] := by
  rw [List.take_add_one, getElem?_render x h, Option.toList_some]

/-- The bits of n from i upwards are those from i + 1 upwards, then bit i. -/
theorem div_two_pow_eq_twice_add_bit (n i : Nat) : n / 2 ^ i = 2 * (n / 2 ^ (i + 1)) + (n.testBit i).toNat := by
  rw [Nat.toNat_testBit, Nat.pow_succ, ← Nat.div_div_eq_div_mul]
  omega

/-- The first m characters of a rendering read as the top m bits of the bus. -/
theorem numeral_take_render (x : BitVec w) {m : Nat} (h : m ≤ w) :
    numeral ((render x).take m) = x.toNat / 2 ^ (w - m) := by
  induction m with
  | zero => rw [Nat.sub_zero, Nat.div_eq_of_lt x.isLt]; rfl
  | succ m ih =>
    have hexp : w - m = w - 1 - m + 1 := by omega
    calc numeral ((render x).take (m + 1))
        = 2 * numeral ((render x).take m) + (x.getLsbD (w - 1 - m)).toNat := by
          rw [take_succ_render x h, numeral_append_digit]
      _ = 2 * (x.toNat / 2 ^ (w - 1 - m + 1)) + (x.toNat.testBit (w - 1 - m)).toNat := by
          rw [ih (by omega), hexp, BitVec.testBit_toNat]
      _ = x.toNat / 2 ^ (w - 1 - m) := (div_two_pow_eq_twice_add_bit _ _).symm
      _ = x.toNat / 2 ^ (w - (m + 1)) := by rw [Nat.sub_sub, Nat.add_comm 1 m]

theorem numeral_render (x : BitVec w) : numeral (render x) = uval x := by
  have h := numeral_take_render x (Nat.le_refl w)
  rwa [List.take_of_length_le (length_render x).le, Nat.sub_self, Nat.pow_zero, Nat.div_one, ← uval_eq_toNat] at h

/-- Settles O45: the characters are read off `render`, the numeral by induction on the number of characters read. -/
theorem renderingReadsBack : Obligations.RenderingReadsBack :=
  ⟨fun _ x => ⟨length_render x, numeral_render x, fun _ => mem_render, fun _ => getElem?_render x⟩, fun _ _ _ => ⟨rfl, rfl⟩⟩

end Sys2Proof.Machine
end

section
/-! What an evaluation, a stimulus line and a vector placed from outside do, each said once (R20, R21, R27, R30, R37). -/

namespace Sys2Proof.Machine

/-! ### Evaluations (R20, R21, R27) -/

section Evaluation
variable {i : Instr}

theorem ruleResult_of_allBits (h : AllBits i) : ruleResult i = .outputs (settledOf i) := by
  rw [ruleResult_eq, resultOf_allBits h]

theorem ruleResult_of_not_allBits (h : ¬ AllBits i) : ruleResult i = .nonBits (nonBitWires i) := by
  rw [ruleResult_eq, resultOf_nonBits h]

/-- What an evaluation of the vector gives back: its rule's outputs, or nothing where it faults (R21, R55). -/
def givenBack (i : Instr) : Option Outputs := if AllBits i then some (settledOf i) else none

/-- The marks that an evaluation of the vector leaves under a name (R35, R55). -/
def marksOf (n : Name) (i : Instr) : List (Name × Fault) :=
  if AllBits i then [] else [(n, .nonBinaryInput (nonBitWires i))]

theorem givenBack_of_outputs {o : Outputs} (h : ruleResult i = .outputs o) : givenBack i = some o := by
  obtain ⟨hb, rfl⟩ := ruleResult_outputs h
  exact if_pos hb

theorem givenBack_of_nonBits {ws : List Wire} (h : ruleResult i = .nonBits ws) : givenBack i = none :=
  if_neg (ruleResult_nonBits h).1

/-- An evaluation whose fault is marked goes on, and changes nothing but the sample, the marks and the time. -/
theorem noteFault_exec (i : Instr) (n : Name) (s : State) :
    ∃ now, s.noteFault n (exec i s) =
      .next { s with now := now, sampled := givenBack i, faults := marksOf n i ++ s.faults } := by
  by_cases hb : AllBits i
  · exact ⟨_, by rw [exec_allBits hb, givenBack, marksOf, if_pos hb, if_pos hb]; rfl⟩
  · exact ⟨s.now, by rw [exec_nonBits hb, givenBack, marksOf, if_neg hb, if_neg hb]; rfl⟩

end Evaluation

/-- Settles O26: an evaluation that answers a next state writes the time and the sample only. -/
theorem evaluationFrame : Obligations.EvaluationFrame := by
  intro i s t h
  obtain ⟨hb, rfl⟩ := exec_next h
  exact ⟨rfl, rfl, rfl, rfl, rfl, settledOf i, rfl, ruleResult_of_allBits hb, settledOf_component i, settledOf_wellFormed i⟩

/-- Settles O27: whether the vector is one of bits decides the outcome, and the sample is a function of the vector. -/
theorem outputsDependOnInputsAlone : Obligations.OutputsDependOnInputsAlone := by
  intro i s s'
  by_cases hb : AllBits i
  · exact .inl ⟨_, _, exec_allBits hb s, exec_allBits hb s', rfl⟩
  · exact .inr ⟨_, exec_nonBits hb s, exec_nonBits hb s'⟩

/-- Settles O36: a step first asks whether an action is pending. -/
theorem idleStepChangesNothing : Obligations.IdleStepChangesNothing := by
  intro s h
  unfold step
  rw [h]

/-! ### Decoding (R30, R32 to R34, R36) -/

section Decode
variable {c : Component} {v : List Level} {i : Instr}

/-- A vector that decodes is the input vector of a well-formed operation. -/
theorem decode_ok (h : decode c v = .ok i) : i.wellFormed = true ∧ encode i = v := by
  unfold decode at h
  split at h
  · cases h; exact ⟨rfl, rfl⟩
  · cases h; exact ⟨rfl, rfl⟩
  · split at h
    · rename_i hlen
      cases h
      exact ⟨by simp [Instr.wellFormed, busWellFormed, hlen, Nat.two_mul], List.take_append_drop _ _⟩
    · cases h
  · cases h
  · cases h

theorem decode_of_length (h : v.length = inputWidth c) : ∃ i, decode c v = .ok i := by
  cases c with
  | halfAdder => obtain ⟨b, a, rfl⟩ := List.length_eq_two.1 h; exact ⟨_, rfl⟩
  | fullAdder => obtain ⟨k, b, a, rfl⟩ := List.length_eq_three.1 h; exact ⟨_, rfl⟩
  | rippleCarryAdder32 => exact ⟨_, if_pos h⟩

theorem decode_of_length_ne (h : v.length ≠ inputWidth c) :
    decode c v = .error (.wrongWidth c (inputWidth c) v.length) := by
  unfold decode
  split
  · exact absurd rfl h
  · exact absurd rfl h
  · exact if_neg h
  · rfl
  · rfl

/-- The call that drives a decoded operation's own levels presents that operation, whatever the bench. -/
theorem decode_ofInstr (h : decode c v = .ok i) (ns : List (Name × Node)) :
    decode (Call.ofInstr i).component ((Call.ofInstr i).vector ns) = .ok i := by
  rw [ofInstr_component, ofInstr_vector, decode_component h, (decode_ok h).2, h]

theorem decodeBits_eq_some {n w : Nat} (h : decodeBits c n w = some i) : ∃ v, decode c v = .ok i := by
  unfold decodeBits at h
  split at h
  · refine ⟨vectorOfNat n w, ?_⟩
    cases hd : decode c (vectorOfNat n w) with
    | ok j => rw [hd] at h; cases h; rfl
    | error e => rw [hd] at h; cases h
  · cases h

theorem decodeTableWord_eq_some {nbits w : Nat} (h : decodeTableWord nbits w = some i) : ∃ c v, decode c v = .ok i := by
  unfold decodeTableWord at h
  split_ifs at h
  all_goals exact ⟨_, decodeBits_eq_some h⟩

end Decode

/-! ### Stimulus lines (R21, R37) -/

section Line
variable {s : State} {l : Line} {rest : List Action} {i : Instr}

/-- A step that takes a line which is not refused evaluates the line's operation in the state with its component placed. -/
theorem step_line (h : s.actions = .stimulus l :: rest) (hc : l.call.check (shapes s.bench) = none)
    (hd : decode l.call.component (l.call.vector s.look) = .ok i) :
    step s = (State.place { s with actions := rest } l).noteFault l.name
      (State.sampleWired s.bench.length l.call.component (l.call.steady s.look)
        (exec i (State.place { s with actions := rest } l))) :=
  (step_cons h).trans (runLine_decoded (s := { s with actions := rest }) hc hd)

/-- Where everything the line refers to settles, nothing is drawn. -/
theorem step_line_steady (h : s.actions = .stimulus l :: rest) (hc : l.call.check (shapes s.bench) = none)
    (hd : decode l.call.component (l.call.vector s.look) = .ok i) (hs : l.call.steady s.look = true) :
    step s = (State.place { s with actions := rest } l).noteFault l.name (exec i (State.place { s with actions := rest } l)) := by
  rw [step_line h hc hd, hs, State.sampleWired_steady]

theorem step_line_refused {r : Refusal} (h : s.actions = .stimulus l :: rest)
    (hc : l.call.check (shapes s.bench) = some r) :
    step s = .refused (State.refusalOf { s with actions := rest } l r) := by
  rw [step_cons h]
  simp only [State.perform, State.runLine, hc]

/-- A line that goes on adds its component, newest, and leaves what the host has still to do. -/
theorem runLine_frame {t : State} (h : s.runLine l = .next t) :
    t.bench = (s.place l).bench ∧ t.actions = s.actions := by
  rcases runLine_cases s l with ⟨r, hr⟩ | ⟨-, i, -, ⟨-, u, hu, ht⟩ | ⟨-, ht⟩⟩
  · rw [hr] at h; cases h
  · obtain ⟨-, rfl⟩ := exec_next hu
    rw [ht] at h
    cases h
    split <;> exact ⟨rfl, rfl⟩
  · rw [ht] at h
    cases h
    exact ⟨rfl, rfl⟩

end Line

/-- Settles O34: a line that is not refused runs the operation its vector decodes to, drawn where a wire does not settle. -/
theorem stepRunsDecodedLine : Obligations.StepRunsDecodedLine := by
  rintro s l rest i p h hc hd rfl
  refine ⟨step_line_steady h hc hd, fun hs => ?_⟩
  rw [step_line h hc hd, hs]
  cases exec i (State.place { s with actions := rest } l) <;> rfl

/-- Settles O35: the placed line drives the decoded operation's own levels, which nothing refuses and which always settle. -/
theorem stepRunsFetchedWord : Obligations.StepRunsFetchedWord := by
  rintro s nbits w i p hw rfl
  obtain ⟨c, v, hd⟩ := decodeTableWord_eq_some hw
  have hplaced : s.withFetchWord nbits w = { s with actions := .stimulus (Line.ofInstr fetchName i) :: s.actions } := by
    simp only [State.withFetchWord, hw]
  rw [hplaced]
  exact step_line_steady rfl (ofInstr_check (decode_ok hd).1 _) (decode_ofInstr hd _) (ofInstr_steady i _)

end Sys2Proof.Machine
end

section
/-! What a component shows once the host has placed, driven or rewired it, and what a hold and a sample then give (R22, R28, R63 to R66). -/

namespace Sys2Proof.Machine

/-! ### The view of a driven component -/

/-- The view of a component driven by a call since a time, with the vector of i on its input wires, among these older views. -/
def drivenView (k : Nat) (call : Call) (i : Instr) (since : Nat) (ns : List (Name × Node)) : Node where
  result := ruleResult i
  steady := call.steady ns
  readyAt := max since (call.readyAt ns) + Config.tSettle call.component
  outputs := wireLevels k call.component (call.steady ns) (ruleResult i)

/-- A component all of whose wires are steady settles to what an evaluation of its vector gives back. -/
theorem drivenView_settled {k : Nat} {call : Call} {i : Instr} {since : Nat} {ns : List (Name × Node)}
    (hs : call.steady ns = true) : (drivenView k call i since ns).settled = givenBack i := by
  unfold Node.settled Node.settles drivenView
  rw [hs]
  cases h : ruleResult i with
  | outputs o => exact (givenBack_of_outputs h).symm
  | nonBits ws => exact (givenBack_of_nonBits h).symm

section Views
variable {n : Name} {call : Call} {i : Instr} {newer older : List Instance} {y : Instance}

theorem nodes_newest_driven (k : Nat) (hy : y.name = n) (hn : ∀ z ∈ newer, z.name ≠ n) (hsrc : y.source = .driven call)
    (hd : decode call.component (call.vector (nodes k older)) = .ok i) :
    lookupName n (nodes k (newer ++ y :: older)) =
      some (drivenView (k + drawsFor older.length) call i y.changedAt (nodes k older)) := by
  obtain ⟨m, src, since, once⟩ := y
  subst hsrc
  rw [nodes_newest k hy hn, Instance.node_driven hd]
  rfl

/-- What a name shows once its newest component was rewired (R66). -/
theorem look_rewire (s : State) (hb : s.bench = newer ++ y :: older) (hy : y.name = n) (hn : ∀ z ∈ newer, z.name ≠ n)
    (hd : decode call.component (call.vector (nodes s.draws older)) = .ok i) :
    lookupName n (s.rewire n call).look =
      some (drivenView (s.draws + drawsFor older.length) call i (if y.source = .driven call then y.changedAt else s.now)
        (nodes s.draws older)) := by
  obtain ⟨newer', y', older', hb', hy', hn', hsrc, hsince, rfl, -⟩ := rewire_newest s n call hb hy hn
  rw [State.look, hb', State.rewire_draws, nodes_newest_driven s.draws hy' hn' hsrc (by rw [remember_nodes, hd]), hsince,
    remember_nodes, remember_length]

/-- A component placed for a line settles to what an evaluation of the line's vector gives back. -/
theorem output_placed {s t : State} {l : Line} (hb : t.bench = (s.place l).bench)
    (hd : decode l.call.component (l.call.vector s.look) = .ok i) (hs : l.call.steady s.look = true) :
    t.output l.name = givenBack i := by
  rw [t.output_eq s.draws, hb, State.place_bench]
  have hview := nodes_newest_driven (newer := []) (older := s.bench) (n := l.name) (call := l.call)
    (y := ⟨l.name, .driven l.call, (s.place l).now, false⟩) s.draws rfl (by simp) rfl hd
  rw [List.nil_append] at hview
  rw [hview]
  exact drivenView_settled hs

end Views

/-! ### Driving (R22, R66) -/

section Drive
variable {s : State} {n : Name} {c : Component} {v : List Level} {i : Instr} {rest : List Action}

theorem step_drive (h : s.actions = .drive n c v :: rest) (hd : decode c v = .ok i) :
    step s = .next (State.drive { s with actions := rest } n i) := by
  rw [step_cons h]
  simp only [State.perform, hd]

theorem drive_eq_rewire (h : lookupName n (shapes s.bench) = some i.component) :
    s.drive n i = s.rewire n (Call.ofInstr i) := if_pos h

theorem drive_bench_of_other (h : lookupName n (shapes s.bench) ≠ some i.component) :
    (s.drive n i).bench =
      { name := n, source := .driven (Call.ofInstr i), changedAt := s.now, settledOnce := false } :: s.bench :=
  congrArg State.bench (if_neg h)

/-- What a driven component shows, changed now or, where the same levels drove it already, when it was. -/
theorem look_drive (s : State) (n : Name) (hd : decode c v = .ok i) :
    ∃ k since ns, lookupName n (s.drive n i).look = some (drivenView k (Call.ofInstr i) i since ns) ∧
      (since = s.now ∨ ∃ y ∈ s.bench, since = y.changedAt) := by
  by_cases hl : lookupName n (shapes s.bench) = some i.component
  · obtain ⟨newer, y, older, hb, hy, -, hn⟩ := lookupName_split Instance.component n s.bench hl
    rw [drive_eq_rewire hl, look_rewire s hb hy hn (decode_ofInstr hd _)]
    refine ⟨_, _, _, rfl, ?_⟩
    split
    · exact .inr ⟨y, by simp [hb], rfl⟩
    · exact .inl rfl
  · rw [State.look, drive_bench_of_other hl]
    exact ⟨_, _, _, nodes_newest_driven (newer := []) (y := ⟨n, _, s.now, false⟩) _ rfl (by simp) rfl (decode_ofInstr hd _),
      .inl rfl⟩

theorem output_drive (s : State) (n : Name) (hd : decode c v = .ok i) : (s.drive n i).output n = givenBack i := by
  obtain ⟨k, since, ns, hlook, -⟩ := look_drive s n hd
  rw [State.output, hlook]
  exact drivenView_settled (ofInstr_steady i ns)

end Drive

/-- Settles O38: the width decides whether the vector decodes, and a decoded vector rewires the newest component of the name or adds
one. -/
theorem driveChecksTheWidth : Obligations.DriveChecksTheWidth := by
  intro s n c v rest h
  refine ⟨fun hw => ?_, fun hw => ?_⟩
  · rw [step_cons h]
    simp only [State.perform, decode_of_length_ne hw]
  · obtain ⟨i, hd⟩ := decode_of_length hw
    have hc := decode_component hd
    have hout := output_drive { s with actions := rest } n hd
    refine ⟨_, i, step_drive h hd, State.drive_actions _ n i, State.drive_now _ n i, State.drive_sampled _ n i,
      State.drive_faults _ n i, State.drive_draws _ n i, hd, ?_, ?_, ?_, ?_⟩
    · exact fun o ho => hout.trans (givenBack_of_outputs ho)
    · exact fun ws hws => hout.trans (givenBack_of_nonBits hws)
    · intro newer x older hb hx hn hxc
      have hl : lookupName n (shapes s.bench) = some i.component := by
        rw [hb, hc, ← hxc]
        exact lookupName_newest Instance.component hx hn
      obtain ⟨_, _, _, -, -, -, -, -, -, hmap⟩ := rewire_newest { s with actions := rest } n (Call.ofInstr i) hb hx hn
      rwa [drive_eq_rewire (s := { s with actions := rest }) hl]
    · exact fun hl => drive_bench_of_other (s := { s with actions := rest }) (hc ▸ hl)

/-! ### Changing one input (R22, R66) -/

section Change
variable {s : State} {n : Name} {p : Port} {x : Operand} {newer older : List Instance} {y : Instance} {call : Call}

/-- What a change of an input does where the operand refers to no component that is not older: its port decides. -/
theorem change_eq_checkPort (hb : s.bench = newer ++ y :: older) (hy : y.name = n) (hn : ∀ z ∈ newer, z.name ≠ n)
    (hp : y.source.call.setPort p x = some call) (hx : ∀ z ∈ newer ++ [y], x.refersTo z.name = false) :
    s.change n p x =
      ((x.checkPort (shapes older) p (portWidth y.component)).elim (.next (s.rewire n call))
        fun r => .refused (s.refusalOf ⟨n, call⟩ r)) := by
  have hfind : (newer ++ [y]).find? (fun z => x.refersTo z.name) = none :=
    List.find?_eq_none.2 fun z hz => by simp [hx z hz]
  unfold State.change
  simp only [newest_eq_some.2 ⟨hb, hy, hn⟩, hp, hfind, setPort_component hp, source_call_component]
  cases x.checkPort (shapes older) p (portWidth y.component) <;> rfl

/-- A change to an operand that fits rewires the component. -/
theorem change_fits (hb : s.bench = newer ++ y :: older) (hy : y.name = n) (hn : ∀ z ∈ newer, z.name ≠ n)
    (hp : y.source.call.setPort p x = some call) (hx : ∀ z ∈ newer ++ [y], x.refersTo z.name = false)
    (hfit : x.Fits (shapes older) (portWidth y.component)) : s.change n p x = .next (s.rewire n call) := by
  rw [change_eq_checkPort hb hy hn hp hx, (checkPort_none_iff _ _ _ _).2 hfit]
  rfl

end Change

/-- Nothing drives the ports of a component that was only powered up (R6, R63). -/
theorem powerUp_ports (c : Component) :
    ∀ q ∈ (Source.powerUp c).call.ports, q.2.2 = .lit (List.replicate q.2.1 .undriven) := by
  cases c <;> simp [Source.call, undrivenInputs, Call.ofInstr, Call.ports]

/-- Settles O58: the port takes the new operand, and the rewiring keeps what is on the others. -/
theorem changingOneInputKeepsTheOthers : Obligations.ChangingOneInputKeepsTheOthers := by
  intro s n p x old w rest newer older y before after h hb hy hn hports hfit hx
  obtain ⟨call, hp, hcall⟩ := setPort_ports (x := x) hports
  have hw : w = portWidth y.component := by
    rw [← source_call_component]
    exact ports_width (q := (p, w, old)) (by simp [hports])
  have hstep : step s = .next (State.rewire { s with actions := rest } n call) :=
    (step_cons h).trans (change_fits (s := { s with actions := rest }) hb hy hn hp hx (hw ▸ hfit))
  obtain ⟨_, _, _, -, -, -, -, -, -, hmap⟩ := rewire_newest { s with actions := rest } n call hb hy hn
  refine ⟨_, call, hstep, rfl, rfl, rfl, rfl, rfl, (setPort_component hp).trans (source_call_component y), hcall, hmap, ?_⟩
  intro c hc q hq
  rw [hc] at hports
  refine powerUp_ports c q ?_
  rw [hports, List.mem_append, List.mem_cons]
  exact (List.mem_append.1 hq).imp id .inr

/-! ### Holding and sampling (R64, R65) -/

section HoldSample
variable {s : State} {n : Name} {rest : List Action} {d : Node} {o : Outputs}

/-- The view under a name is that of the newest component of the name. -/
theorem nodes_split {k : Nat} {bench : List Instance} (h : lookupName n (nodes k bench) = some d) :
    ∃ newer x older, bench = newer ++ x :: older ∧ x.name = n ∧ (∀ y ∈ newer, y.name ≠ n) ∧
      d = x.node (k + drawsFor older.length) (nodes k older) := by
  have hshape : lookupName n (shapes bench) = some d.outputs.component := by rw [lookupName_shapes k, h]; rfl
  obtain ⟨newer, x, older, rfl, hx, -, hn⟩ := lookupName_split Instance.component n bench hshape
  rw [nodes_newest k hx hn, Option.some.injEq] at h
  exact ⟨newer, x, older, rfl, hx, hn, h.symm⟩

/-- A component that is ready gives its rule's outputs to a sample (R65). -/
theorem step_sample_ready (h : s.actions = .sample n :: rest) (hd : lookupName n s.look = some d) (hs : d.steady = true)
    (hr : d.readyAt ≤ s.now) (ho : d.result = .outputs o) :
    step s = .next { s with actions := rest, sampled := some o } := by
  obtain ⟨newer, x, older, hb, hx, hn, rfl⟩ := nodes_split hd
  rw [step_sample h hb hx hn]
  simp only [State.sampleInstance, if_pos (And.intro hs hr), ho]
  rfl

/-- After a step that gave a component the vector i of bits, a hold for its settle time and a sample give what the evaluation of i
gives, where what it is wired to was ready by the hold (R64, R65). -/
theorem run_hold_sample {t : State} {d k since : Nat} {call : Call} {i : Instr} {ns : List (Name × Node)}
    (hstep : step s = .next t) (hact : t.actions = .hold d :: .sample n :: rest) (hfaults : t.faults = s.faults)
    (hlook : lookupName n t.look = some (drivenView k call i since ns)) (hsteady : call.steady ns = true)
    (hready : max since (call.readyAt ns) ≤ t.now) (hhold : Config.tSettle call.component ≤ d) (hbits : AllBits i) :
    ∃ v u, core.run 3 s = .next v ∧ exec i s = .next u ∧ v.sampled = u.sampled ∧ v.actions = rest ∧ v.faults = s.faults := by
  have hsample : step { t with actions := .sample n :: rest, now := t.now + d } =
      .next { t with actions := rest, now := t.now + d, sampled := some (settledOf i) } :=
    step_sample_ready rfl hlook hsteady (Nat.add_le_add hready hhold) (ruleResult_of_allBits hbits)
  have hrun : core.run 3 s = .next { t with actions := rest, now := t.now + d, sampled := some (settledOf i) } := by
    rw [run_next hstep, run_next (step_cons hact)]
    exact (run_next hsample 0).trans (run_zero _)
  exact ⟨_, _, hrun, exec_allBits hbits s, rfl, rfl, hfaults⟩

end HoldSample

/-- Settles O42: the levels driven are steady, and have been there since a time that lies in the past. -/
theorem driveHoldSampleIsAnEvaluation : Obligations.DriveHoldSampleIsAnEvaluation := by
  intro s n c v d rest i hinv h hhold hd hbits
  obtain ⟨k, since, ns, hlook, hsince⟩ := look_drive { s with actions := .hold d :: .sample n :: rest } n hd
  have hpast : since ≤ s.now := by
    rcases hsince with rfl | ⟨y, hy, rfl⟩
    · exact Nat.le_refl _
    · exact hinv.past y hy
  refine run_hold_sample (step_drive h hd) (State.drive_actions _ n i) (State.drive_faults _ n i) hlook (ofInstr_steady i ns)
    ?_ ?_ hbits
  · rw [ofInstr_readyAt, State.drive_now]
    exact max_le hpast (Nat.zero_le _)
  · rwa [ofInstr_component, decode_component hd]

/-- Settles O60: the change rewires the component, which is steady where what it is then wired to is. -/
theorem changeHoldSampleIsAnEvaluation : Obligations.ChangeHoldSampleIsAnEvaluation := by
  intro s n p x d rest newer older y call i hinv h hb hy hn hp hfit hx hsteady hready hhold hd hbits
  have hstep := (step_cons h).trans (change_fits (s := { s with actions := .hold d :: .sample n :: rest }) hb hy hn hp hx hfit)
  have hlook := look_rewire { s with actions := .hold d :: .sample n :: rest } hb hy hn hd
  have hpast : y.changedAt ≤ s.now := hinv.past y (by simp [hb])
  refine run_hold_sample hstep rfl rfl hlook hsteady (max_le ?_ hready) hhold hbits
  split
  · exact hpast
  · exact Nat.le_refl _

/-- Settles O30: the line's evaluation completes, and its component settles to what was sampled. -/
theorem stimulusLineCompletes : Obligations.StimulusLineCompletes := by
  intro s l rest i h hc hs hd hbits
  have hstep := step_line_steady h hc hd hs
  rw [exec_allBits hbits, State.noteFault_next] at hstep
  refine ⟨_, settledOf i, hstep, rfl, rfl, ruleResult_of_allBits hbits, rfl, ?_⟩
  exact (output_placed (s := { s with actions := rest }) rfl hd hs).trans (if_pos hbits)

end Sys2Proof.Machine
end

section
/-! What one component's step leaves of the others, and what is refused by name (R23, R28, R36, R37, R67). -/

namespace Sys2Proof.Machine

/-! ### Independence (R23, R28) -/

section Independence
variable {s t : State} {m n : Name}

theorem output_of_bench (h : t.bench = s.bench) : t.output m = s.output m := by
  rw [t.output_eq s.draws, h, s.output_eq s.draws]

/-- A component added under another name leaves the view under this one. -/
theorem look_cons_other {x : Instance} (hb : t.bench = x :: s.bench) (hx : x.name ≠ m) : SameAt m s.look t.look := by
  unfold SameAt State.look
  rw [hb, nodes_cons, lookupName_other hx]
  exact nodes_same s.draws t.draws s.bench m

theorem output_cons_other {x : Instance} (hb : t.bench = x :: s.bench) (hx : x.name ≠ m) : t.output m = s.output m :=
  (look_cons_other hb hx).settled.symm

/-- A sample leaves the bench, the time and what the host has still to do. -/
theorem sample_frame (h : s.noteFault n (s.sampleIn n s.bench) = .next t) :
    t.actions = s.actions ∧ t.bench = s.bench ∧ t.now = s.now := by
  rcases sampleIn_cases s n s.bench with ⟨hr, -⟩ | ⟨newer, x, older, -, -, -, hr⟩
  · rw [hr] at h; cases h
  · rw [hr] at h
    rcases sampleInstance_cases s x older with ⟨i, -, hi⟩ | hi | ⟨-, -, hi⟩
    all_goals
      rw [hi] at h
      cases h
      exact ⟨rfl, rfl, rfl⟩

/-- Remembering what has settled changes no wire. -/
@[simp] theorem dependents_remember (k t : Nat) (bench : List Instance) :
    dependents n (remember k t bench) = dependents n bench := by
  induction bench with
  | nil => rfl
  | cons x rest ih =>
    have hnames : (remember k t rest).map (fun y => (y.name, false)) = rest.map fun y => (y.name, false) :=
      remember_map k t rest fun name _ _ => (name, false)
    simp only [remember, dependents, ih, hnames]

/-- Driving the newest component of a name leaves the view of each name that is not wired to it, directly or through others: by
induction on the bench, since a component sees older ones only. -/
theorem nodes_redrive_same (k t : Nat) (src : Source) (bench : List Instance)
    (h : lookupName m (dependents n bench) ≠ some true) : SameAt m (nodes k (redrive n src t bench)) (nodes k bench) := by
  induction bench generalizing m with
  | nil => exact .none
  | cons x rest ih =>
    by_cases hx : x.name = n
    · have hm : x.name ≠ m := by
        rintro rfl
        simp [dependents, hx] at h
      simp only [redrive, if_pos hx]
      refine SameAt.of_eq ?_
      rw [nodes_cons, nodes_cons, lookupName_other hm, lookupName_other]
      split <;> exact hm
    · simp only [redrive, dependents, if_neg hx] at h ⊢
      by_cases hm : x.name = m
      · simp only [lookupName, hm, if_true, ne_eq, Option.some.injEq, Bool.not_eq_true] at h
        simp only [SameAt, nodes_cons, lookupName, hm, if_true]
        refine .some (x.same _ _ fun call hcall r hr => ih fun hdep => ?_)
        rw [hcall] at h
        exact List.any_eq_false.1 h (r, true) (lookupName_mem hdep) (by simp [hr, hdep])
      · rw [lookupName_other hm] at h
        simp only [SameAt, nodes_cons, lookupName_other hm]
        exact ih h

theorem output_rewire_other (call : Call) (h : lookupName m (dependents n s.bench) ≠ some true) :
    (s.rewire n call).output m = s.output m := by
  have hsame := nodes_redrive_same (m := m) (n := n) s.draws s.now (.driven call) (remember s.draws s.now s.bench)
    (by rwa [dependents_remember])
  rw [remember_nodes] at hsame
  exact hsame.settled

theorem output_drive_other {i : Instr} (hm : m ≠ n) (h : lookupName m (dependents n s.bench) ≠ some true) :
    (s.drive n i).output m = s.output m := by
  by_cases hl : lookupName n (shapes s.bench) = some i.component
  · rw [drive_eq_rewire hl]
    exact output_rewire_other _ h
  · exact output_cons_other (drive_bench_of_other hl) hm.symm

theorem output_change_other {p : Port} {x : Operand} (ht : s.change n p x = .next t)
    (h : lookupName m (dependents n s.bench) ≠ some true) : t.output m = s.output m := by
  rcases change_cases s n p x with ⟨r, hr⟩ | ⟨_, _, _, call, -, -, -, -, -, -, hr⟩
  · rw [hr] at ht; cases ht
  · rw [hr] at ht
    cases ht
    exact output_rewire_other call h

end Independence

/-- Settles O29: a step adds a component under the name, leaves the bench, or rewires the newest one of the name. -/
theorem instancesAreIndependent : Obligations.InstancesAreIndependent := by
  intro s t act rest n m h hstep hm
  rw [step_cons h] at hstep
  refine ⟨?_, ?_⟩
  · rintro (⟨call, rfl⟩ | ⟨c, rfl⟩ | rfl)
    · exact output_cons_other (s := { s with actions := rest }) (runLine_frame hstep).1 hm.symm
    · cases hstep
      exact output_cons_other (s := { s with actions := rest }) rfl hm.symm
    · exact output_of_bench (sample_frame hstep).2.1
  · rintro (⟨c, v, rfl⟩ | ⟨p, x, rfl⟩) hdep
    · cases hd : decode c v with
      | error e => simp only [State.perform, hd] at hstep; cases hstep
      | ok i =>
        simp only [State.perform, hd] at hstep
        cases hstep
        exact output_drive_other (s := { s with actions := rest }) hm hdep
    · exact output_change_other (s := { s with actions := rest }) hstep hdep

/-- What an operand is checked for, and its width, depend on the names it refers to alone. -/
theorem Operand.check_congr {sh sh' : List (Name × Component)} (x : Operand)
    (h : ∀ m, x.refersTo m = true → lookupName m sh = lookupName m sh') :
    x.check sh = x.check sh' ∧ x.width sh = x.width sh' := by
  induction x with
  | lit ls => exact ⟨rfl, rfl⟩
  | sum m => simp only [Operand.check, Operand.width, h m (beq_self_eq_true m), and_self]
  | carry m => simp only [Operand.check, Operand.width, h m (beq_self_eq_true m), and_self]
  | sumBit m i => simp only [Operand.check, Operand.width, h m (beq_self_eq_true m), and_self]
  | inv x ih => exact ih h
  | cat x y ihx ihy =>
    obtain ⟨cx, wx⟩ := ihx fun m hm => h m (by simp [Operand.refersTo, hm])
    obtain ⟨cy, wy⟩ := ihy fun m hm => h m (by simp [Operand.refersTo, hm])
    simp only [Operand.check, Operand.width, cx, wx, cy, wy, and_self]

theorem Call.check_congr {sh sh' : List (Name × Component)} (c : Call)
    (h : ∀ m, c.refersTo m = true → lookupName m sh = lookupName m sh') : c.check sh = c.check sh' := by
  have hport : ∀ q ∈ c.ports, q.2.2.checkPort sh q.1 q.2.1 = q.2.2.checkPort sh' q.1 q.2.1 := by
    intro q hq
    obtain ⟨hcheck, hwidth⟩ := q.2.2.check_congr fun m hm => h m (List.any_eq_true.2 ⟨q, hq, hm⟩)
    simp only [Operand.checkPort, hcheck, hwidth]
  rw [Call.check, Call.check, ← List.head?_filterMap, ← List.head?_filterMap, List.filterMap_congr hport]

/-- What a line that goes on has passed: its check, and the reading of its vector. -/
theorem step_line_next {s t : State} {l : Line} {rest : List Action} (h : s.actions = .stimulus l :: rest)
    (ht : step s = .next t) :
    l.call.check (shapes s.bench) = none ∧ ∃ i, decode l.call.component (l.call.vector s.look) = .ok i := by
  rw [step_cons h] at ht
  rcases runLine_cases { s with actions := rest } l with ⟨r, hr⟩ | ⟨hc, i, hd, -⟩
  · exact absurd (hr.symm.trans ht) (by simp)
  · exact ⟨hc, i, hd⟩

/-- Settles O48: what the second line refers to has the same views after the first line, so its vector is the same one. -/
theorem evaluationsAreIndependent : Obligations.EvaluationsAreIndependent := by
  intro s t u first second rest h hrefers hsteady ht hu
  obtain ⟨hc, i, hd⟩ := step_line_next rfl hu
  rw [step_cons h] at ht
  obtain ⟨hbench, hactions⟩ := runLine_frame ht
  rw [State.place_bench] at hbench
  have hother : ∀ m, second.call.refersTo m = true → first.name ≠ m := by
    rintro m hm rfl
    rw [hrefers] at hm
    cases hm
  obtain ⟨hsame, -, hvector⟩ := second.call.same fun m hm => look_cons_other (s := s) hbench (hother m hm)
  have hcheck : second.call.check (shapes t.bench) = none := by
    rw [← hc, hbench]
    exact second.call.check_congr fun m hm => lookupName_other (hother m hm) _ _
  have hv := step_line_steady hactions hcheck (by rw [← hvector hsteady]; exact hd) (by rw [← hsame]; exact hsteady)
  rw [step_line_steady rfl hc hd hsteady] at hu
  obtain ⟨_, hv'⟩ := noteFault_exec i second.name (State.place { t with actions := rest } second)
  obtain ⟨_, hu'⟩ := noteFault_exec i second.name (State.place { s with actions := rest } second)
  cases hu.symm.trans hu'
  exact ⟨_, marksOf second.name i, hv.trans hv', rfl, rfl, rfl, rfl⟩

/-! ### Refusals by name (R16 to R18, R36, R37, R67) -/

section Refusals
variable {sh : List (Name × Component)} {p : Port} {w u : Nat} {x y : Operand} {r : Refusal}

theorem lookupName_shapes_eq_none {n : Name} {bench : List Instance} :
    lookupName n (shapes bench) = none ↔ ∀ y ∈ bench, y.name ≠ n := by
  induction bench with
  | nil => simp [lookupName]
  | cons x rest ih =>
    rw [shapes_cons, lookupName, List.forall_mem_cons]
    split <;> simp_all

theorem checkPort_of_check (h : x.check sh = some r) : x.checkPort sh p w = some r := by
  rw [Operand.checkPort, h, Option.some_or]

theorem checkPort_of_width (h : x.Fits sh u) (hw : u ≠ w) : x.checkPort sh p w = some (.operandWidth p w u) := by
  obtain ⟨hc, rfl⟩ := (check_none_iff _ _ _).2 h
  rw [Operand.checkPort, hc, if_neg hw, Option.none_or]

/-- An operand is refused for what is refused in it: directly, inverted, or in either part of a concatenation whose other part, where
it comes first, fits. -/
theorem check_within (hx : x.check sh = some r)
    (hy : y = x ∨ y = .inv x ∨ (∃ z, y = .cat x z) ∨ ∃ z u, y = .cat z x ∧ z.Fits sh u) : y.check sh = some r := by
  rcases hy with rfl | rfl | ⟨z, rfl⟩ | ⟨z, u, rfl, hz⟩
  · exact hx
  · exact hx
  · rw [Operand.check, hx, Option.some_or]
  · rw [Operand.check, ((check_none_iff _ _ _).2 hz).1, hx, Option.none_or]

/-- A call is refused for the first port whose operand does not fit. -/
theorem check_first_misfit {c : Call} {before after : List (Port × Nat × Operand)} (h : c.ports = before ++ (p, w, y) :: after)
    (hbefore : ∀ q ∈ before, q.2.2.Fits sh q.2.1) (hy : y.checkPort sh p w = some r) : c.check sh = some r := by
  have hnone : before.findSome? (fun q => q.2.2.checkPort sh q.1 q.2.1) = none :=
    List.findSome?_eq_none_iff.2 fun q hq => (checkPort_none_iff _ _ _ _).2 (hbefore q hq)
  rw [Call.check, h, List.findSome?_append, hnone, List.findSome?_cons, hy]
  rfl

/-- An operand that reads a port of a name that is not bound. -/
theorem check_unbound {m : Name} (hx : x = .sum m ∨ x = .carry m ∨ ∃ i, x = .sumBit m i) (hm : lookupName m sh = none) :
    x.check sh = some (.unknownBinding m) ∧ x.refersTo m = true := by
  rcases hx with rfl | rfl | ⟨i, rfl⟩ <;> simp [Operand.check, Operand.refersTo, hm]

end Refusals

/-- Settles O57: the first port whose operand does not fit names the refusal; a sample is refused where the bench has not the name. -/
theorem misfitsAreRefusedByName : Obligations.MisfitsAreRefusedByName := by
  refine ⟨fun s l rest before after p w y h hports hbefore => ?_, fun s n rest h => ⟨fun hl => ?_, fun hl => ?_⟩⟩
  · have refused : ∀ r, y.checkPort (shapes s.bench) p w = some r →
        step s = .refused (State.refusalOf { s with actions := rest } l r) :=
      fun r hr => step_line_refused h (check_first_misfit hports hbefore hr)
    refine ⟨fun u hfit hu => refused _ (checkPort_of_width hfit hu), fun x hy => ⟨?_, ?_⟩⟩
    · rintro n rfl hn
      exact refused (.noSuchPort n) (checkPort_of_check (check_within (by simp [Operand.check, hn, carryWidth]) hy))
    · rintro n i c rfl hn hi
      exact refused (.noSuchBit n i) (checkPort_of_check (check_within (by simp [Operand.check, hn, hi]) hy))
  · rw [step_cons h]
    rcases sampleIn_cases { s with actions := rest } n s.bench with ⟨hr, -⟩ | ⟨newer, x, older, hb, hx, -, -⟩
    · simp only [State.perform, hr, State.noteFault_refused]
    · exact absurd hx (lookupName_shapes_eq_none.1 hl x (by simp [hb]))
  · rcases sampleIn_cases { s with actions := rest } n s.bench with ⟨-, hn⟩ | ⟨newer, x, older, -, -, -, hr⟩
    · exact absurd (lookupName_shapes_eq_none.2 hn) hl
    · obtain ⟨t, ht⟩ := sampleInstance_goes_on { s with actions := rest } n x older
      rw [← hr] at ht
      exact ⟨t, (step_cons h).trans ht, sample_frame ht⟩

/-- Only a full adder has a carryIn (R16 to R18). -/
theorem setPort_carryIn {c : Call} (x : Operand) (h : c.component ≠ .fullAdder) : c.setPort .carryIn x = none := by
  cases c with
  | fa a b k => exact absurd rfl h
  | ha a b => rfl
  | add32 a b => rfl

/-- A change to an operand that refers to a component which is not older is refused. -/
theorem change_later {s : State} {n : Name} {p : Port} {x : Operand} {newer older : List Instance} {y : Instance} {call : Call}
    (hb : s.bench = newer ++ y :: older) (hy : y.name = n) (hn : ∀ z ∈ newer, z.name ≠ n)
    (hp : y.source.call.setPort p x = some call) (hx : ∃ z ∈ newer ++ [y], x.refersTo z.name = true) :
    ∃ z ∈ newer ++ [y], x.refersTo z.name = true ∧ s.change n p x = .refused (.laterBinding z.name) := by
  obtain ⟨z, hz⟩ := Option.isSome_iff_exists.1 (List.find?_isSome.2 hx)
  have hrefers : x.refersTo z.name = true := List.find?_some (p := fun z : Instance => x.refersTo z.name) hz
  refine ⟨z, List.mem_of_find?_eq_some hz, hrefers, ?_⟩
  unfold State.change
  simp only [newest_eq_some.2 ⟨hb, hy, hn⟩, hp, hz]

/-- Settles O59: what a change asks for in turn is a component, a port, older references, and an operand that fits. -/
theorem misfittingChangesAreRefused : Obligations.MisfittingChangesAreRefused := by
  intro s n p x rest h
  rw [step_cons h]
  refine ⟨fun hl => ?_, fun newer y older hb hy hn => ⟨?_, fun w old hport => ?_⟩⟩
  · simp only [State.perform, State.change, newest_eq_none.2 (lookupName_shapes_eq_none.1 hl)]
  · rintro rfl hc
    have hp : y.source.call.setPort .carryIn x = none := setPort_carryIn x (by rwa [source_call_component])
    simp only [State.perform, State.change, newest_eq_some.2 ⟨hb, hy, hn⟩, hp]
  · obtain ⟨before, after, hports⟩ := List.append_of_mem hport
    obtain ⟨call, hp, -⟩ := setPort_ports (x := x) hports
    have hw : w = portWidth y.component := (ports_width hport).trans (by rw [source_call_component])
    refine ⟨change_later (s := { s with actions := rest }) hb hy hn hp, fun hx => ?_⟩
    have refused : ∀ r, x.checkPort (shapes older) p w = some r →
        State.change { s with actions := rest } n p x = .refused (State.refusalOf { s with actions := rest } ⟨n, call⟩ r) := by
      intro r hr
      rw [change_eq_checkPort (s := { s with actions := rest }) hb hy hn hp hx, ← hw, hr]
      rfl
    refine ⟨fun u hfit hu => refused _ (checkPort_of_width hfit hu), fun hfit => ?_, fun m hxm hm => ?_⟩
    · obtain ⟨r, hr⟩ := Option.ne_none_iff_exists'.1 (mt (checkPort_none_iff (shapes older) p w x).1 hfit)
      exact ⟨_, refused r hr⟩
    · obtain ⟨hcheck, hrefers⟩ := check_unbound hxm hm
      have hne : n ≠ m := by
        rintro rfl
        rw [← hy, hx y (by simp)] at hrefers
        cases hrefers
      refine (refused _ (checkPort_of_check hcheck)).trans ?_
      simp only [State.refusalOf, hne, false_or]

end Sys2Proof.Machine
end

section
/-! When a component has settled behind what it is wired to, and which lines settle at all (R27, R28, R63, R65, R66). -/

namespace Sys2Proof.Machine

/-- Settles O28: an evaluation of bits completes from every state, and writes the time and the same sample. -/
theorem evaluationIsIdempotent : Obligations.EvaluationIsIdempotent := by
  intro i s t h
  obtain ⟨hb, rfl⟩ := exec_next h
  exact ⟨_, exec_allBits hb _, rfl, rfl⟩

/-! ### What operands and calls wait for (R28, R37) -/

section References
variable {ns : List (Name × Node)}

/-- The view under a name, where there is one, settles exactly where the name settles to outputs. -/
theorem settles_iff_settled (d : Option Node) : (d.map Node.settles).getD false = true ↔ ∃ o, d.bind Node.settled = some o := by
  cases d with
  | none => simp
  | some d => simp [Node.settled]

/-- An operand's wires settle exactly where all it refers to does. -/
theorem Operand.steady_iff (x : Operand) :
    x.steady ns = true ↔ ∀ n, x.refersTo n = true → ∃ o, (lookupName n ns).bind Node.settled = some o := by
  induction x with
  | lit ls => simp [Operand.steady, Operand.refersTo]
  | sum n | carry n | sumBit n i => simp only [Operand.steady, Operand.refersTo, settles_iff_settled, beq_iff_eq, forall_eq']
  | inv x ih => exact ih
  | cat x y ihx ihy => simp only [Operand.steady, Operand.refersTo, Bool.and_eq_true, Bool.or_eq_true, ihx, ihy, or_imp, forall_and]

/-- A call refers to what an operand on one of its ports refers to. -/
theorem Call.refersTo_iff {n : Name} {c : Call} : c.refersTo n = true ↔ ∃ q ∈ c.ports, q.2.2.refersTo n = true :=
  List.any_eq_true

/-- A call's wires settle exactly where all it refers to does. -/
theorem Call.steady_iff (c : Call) :
    c.steady ns = true ↔ ∀ n, c.refersTo n = true → ∃ o, (lookupName n ns).bind Node.settled = some o := by
  simp only [Call.steady, List.all_eq_true, Operand.steady_iff, Call.refersTo_iff]
  exact ⟨fun h n ⟨q, hq, hn⟩ => h q hq n hn, fun h q hq n hn => h n ⟨q, hq, hn⟩⟩

/-- A bound on the ready time of the view under a name, where there is one. -/
theorem readyAt_getD_le_iff (d : Option Node) (t : Nat) : (d.map Node.readyAt).getD 0 ≤ t ↔ ∀ e, d = some e → e.readyAt ≤ t := by
  cases d <;> simp

/-- The ready time of an operand is the least bound on those of all it refers to. -/
theorem Operand.readyAt_le_iff (x : Operand) (t : Nat) :
    x.readyAt ns ≤ t ↔ ∀ n, x.refersTo n = true → ∀ d, lookupName n ns = some d → d.readyAt ≤ t := by
  induction x with
  | lit ls => simp [Operand.readyAt, Operand.refersTo]
  | sum n | carry n | sumBit n i => simp only [Operand.readyAt, Operand.refersTo, readyAt_getD_le_iff, beq_iff_eq, forall_eq']
  | inv x ih => exact ih
  | cat x y ihx ihy => simp only [Operand.readyAt, Operand.refersTo, Nat.max_le, Bool.or_eq_true, ihx, ihy, or_imp, forall_and]

/-- The ready time of a call is the least bound on those of its operands. -/
theorem Call.readyAt_le_iff_ports (c : Call) (t : Nat) : c.readyAt ns ≤ t ↔ ∀ q ∈ c.ports, q.2.2.readyAt ns ≤ t := by
  cases c <;> simp [Call.readyAt, Call.ports]

/-- The ready time of a call is the least bound on those of all it refers to. -/
theorem Call.readyAt_le_iff (c : Call) (t : Nat) :
    c.readyAt ns ≤ t ↔ ∀ n d, c.refersTo n = true → lookupName n ns = some d → d.readyAt ≤ t := by
  simp only [Call.readyAt_le_iff_ports, Operand.readyAt_le_iff, Call.refersTo_iff]
  exact ⟨fun h n d ⟨q, hq, hn⟩ hd => h q hq n hn d hd, fun h q hq n hn d hd => h n d ⟨q, hq, hn⟩ hd⟩

end References

/-- Settles O55: what a name settles to is what its view in the line's look does. -/
theorem lineSettlesWithItsReferences : Obligations.LineSettlesWithItsReferences :=
  fun _ l => l.call.steady_iff

/-! ### When a driven component is ready (R28, R65) -/

section Ready
variable {k : Nat} {n : Name} {call : Call} {newer older : List Instance} {x : Instance}

/-- The ready time of a driven component: its own last change or all it is wired to, and then its settle time (log 24). -/
theorem node_readyAt_driven (hsrc : x.source = .driven call) (ns : List (Name × Node)) :
    (x.node k ns).readyAt = max x.changedAt (call.readyAt ns) + Config.tSettle call.component := by
  simp only [Instance.node, Instance.sourceReadyAt, Instance.component, hsrc]

/-- The ready time of a driven component is the least time that is its settle time after its last change and after the ready time
of each thing it is wired to. -/
theorem node_readyAt_le_iff (hsrc : x.source = .driven call) (ns : List (Name × Node)) (t : Nat) :
    (x.node k ns).readyAt ≤ t ↔ x.changedAt + Config.tSettle call.component ≤ t ∧
      ∀ m d, call.refersTo m = true → lookupName m ns = some d → d.readyAt + Config.tSettle call.component ≤ t := by
  rw [node_readyAt_driven hsrc, ← Nat.add_max_add_right, Nat.max_le]
  refine and_congr_right fun hchanged => ?_
  have hle : Config.tSettle call.component ≤ t := (Nat.le_add_left _ _).trans hchanged
  simp only [← Nat.le_sub_iff_add_le hle, Call.readyAt_le_iff]

/-- A driven component waits its settle time after its last change and after the ready time of each thing it is wired to. -/
theorem node_waits (hsrc : x.source = .driven call) (ns : List (Name × Node)) :
    x.changedAt + Config.tSettle call.component ≤ (x.node k ns).readyAt ∧
      ∀ m d, call.refersTo m = true → lookupName m ns = some d →
        d.readyAt + Config.tSettle call.component ≤ (x.node k ns).readyAt :=
  (node_readyAt_le_iff hsrc ns _).1 le_rfl

/-- The views of the older part of a bench stand behind those of the newer part. -/
theorem drop_nodes (k : Nat) (newer older : List Instance) : (nodes k (newer ++ older)).drop newer.length = nodes k older := by
  induction newer with
  | nil => rfl
  | cons z newer ih => simpa using ih

/-- The view of a component stands where the component does. -/
theorem nodes_getElem? (k : Nat) (newer older : List Instance) (x : Instance) :
    (nodes k (newer ++ x :: older))[newer.length]? = some (x.name, x.node (k + drawsFor older.length) (nodes k older)) := by
  rw [← List.head?_drop, drop_nodes, nodes_cons, List.head?_cons]

/-- Newer components under other names do not hide a view. -/
theorem nodes_append_other (k : Nat) (older : List Instance) (hn : ∀ z ∈ newer, z.name ≠ n) :
    lookupName n (nodes k (newer ++ older)) = lookupName n (nodes k older) := by
  induction newer with
  | nil => rfl
  | cons z newer ih =>
    simp only [List.mem_cons, forall_eq_or_imp] at hn
    rw [List.cons_append, nodes_cons, lookupName_other hn.1]
    exact ih hn.2

/-- When a call is ready depends on the bench and not on the draws of the look. -/
theorem readyAt_nodes (j k : Nat) (c : Call) (bench : List Instance) : c.readyAt (nodes j bench) = c.readyAt (nodes k bench) :=
  (c.same fun m _ => nodes_same j k bench m).2.1

end Ready

/-- A component placed for a line is ready its settle time after it was placed: the placing waited for what the line refers to. -/
theorem node_readyAt_placed (s : State) (l : Line) (j k : Nat) :
    (Instance.node j (nodes k s.bench) ⟨l.name, .driven l.call, (s.place l).now, false⟩).readyAt =
      (s.place l).now + Config.tSettle l.call.component := by
  have hwait : l.call.readyAt (nodes k s.bench) ≤ (s.place l).now := by
    rw [readyAt_nodes k s.draws]
    exact Nat.le_max_right _ _
  rw [node_readyAt_driven rfl, Nat.max_eq_left hwait]

/-- Settles O33: the ready time of a view is a least bound, and a placing waits for all that the line refers to. -/
theorem downstreamSettlesAfterUpstream : Obligations.DownstreamSettlesAfterUpstream := by
  intro s
  refine ⟨fun newer x older call e hb hsrc he => ?_, fun l => ⟨rfl, Nat.le_max_left _ _, fun e he => ⟨?_, ?_⟩⟩⟩
  · have hdrop : s.look.drop (newer.length + 1) = nodes s.draws older := by
      rw [State.look, hb, ← List.drop_drop, drop_nodes, nodes_cons, List.drop_one, List.tail_cons]
    rw [State.look, hb, nodes_getElem?, Option.some.injEq, Prod.mk.injEq] at he
    obtain ⟨-, rfl⟩ := he
    rw [hdrop]
    obtain ⟨hchanged, hwired⟩ := node_waits hsrc (nodes s.draws older)
    exact ⟨hchanged, hwired, fun t htc htw => (node_readyAt_le_iff hsrc _ t).2 ⟨htc, htw⟩⟩
  · rw [State.look, State.place_bench, nodes_cons, lookupName_self, Option.some.injEq] at he
    rw [← he]
    exact node_readyAt_placed s l _ _
  · exact fun n d => (l.call.readyAt_le_iff _).1 (Nat.le_max_right _ _) n d

/-! ### What is wired to a component that the host changes (R28, R66) -/

section Behind
variable {s t : State} {n : Name} {call : Call} {newer older : List Instance} {y : Instance}

/-- What is wired to the newest component of a name is ready behind that component's own last change and settle time. -/
theorem readyBehind_newest (hb : t.bench = newer ++ y :: older) (hy : y.name = n) (hn : ∀ z ∈ newer, z.name ≠ n)
    (hsrc : y.source = .driven call) : t.ReadyBehind n (y.changedAt + Config.tSettle call.component) := by
  intro newer' z older' wiring e hb' hz hrefers hn' hzn he
  have hview : lookupName n (nodes t.draws older') =
      some (y.node (t.draws + drawsFor older.length) (nodes t.draws older)) := by
    have hother : ∀ w ∈ newer' ++ [z], w.name ≠ n := by
      simpa [or_imp, forall_and] using ⟨hn', hzn⟩
    rw [← nodes_append_other t.draws older' hother, List.append_assoc, List.singleton_append, ← hb', hb, nodes_newest _ hy hn]
  rw [State.look, hb', nodes_getElem?, Option.some.injEq, Prod.mk.injEq] at he
  obtain ⟨-, rfl⟩ := he
  obtain ⟨hchanged, -⟩ := node_waits (k := t.draws + drawsFor older.length) hsrc (nodes t.draws older)
  obtain ⟨-, hwired⟩ := node_waits hz (nodes t.draws older')
  exact (Nat.add_le_add_right hchanged _).trans (hwired n _ hrefers hview)

/-- Rewiring a component to a call that did not drive it changes it now. -/
theorem rewire_readyBehind (hb : s.bench = newer ++ y :: older) (hy : y.name = n) (hn : ∀ z ∈ newer, z.name ≠ n)
    (hsrc : y.source ≠ .driven call) : (s.rewire n call).ReadyBehind n (s.now + Config.tSettle call.component) := by
  obtain ⟨newer', y', older', hb', hy', hn', hsrc', hchanged, -, -⟩ := rewire_newest s n call hb hy hn
  rw [if_neg hsrc] at hchanged
  exact hchanged ▸ readyBehind_newest hb' hy' hn' hsrc'

/-- Rewiring a component leaves the call as what drives it. -/
theorem lookupName_rewire (hb : s.bench = newer ++ y :: older) (hy : y.name = n) (hn : ∀ z ∈ newer, z.name ≠ n) :
    lookupName n ((s.rewire n call).bench.map fun x => (x.name, x.source)) = some (.driven call) := by
  obtain ⟨newer', y', older', hb', hy', hn', hsrc', -, -, -⟩ := rewire_newest s n call hb hy hn
  rw [hb', lookupName_newest Instance.source hy' hn', hsrc']

/-- Driving a component with levels that did not drive it rewires it, or adds one, and either way it is changed now. -/
theorem drive_readyBehind {i : Instr}
    (hsrc : lookupName n (s.bench.map fun x => (x.name, x.source)) ≠ some (.driven (Call.ofInstr i))) :
    (s.drive n i).ReadyBehind n (s.now + Config.tSettle i.component) := by
  rw [← ofInstr_component i]
  by_cases hl : lookupName n (shapes s.bench) = some i.component
  · obtain ⟨newer, y, older, hb, hy, -, hn⟩ := lookupName_split Instance.component n s.bench hl
    rw [hb, lookupName_newest Instance.source hy hn, ne_eq, Option.some.injEq] at hsrc
    rw [drive_eq_rewire hl]
    exact rewire_readyBehind hb hy hn hsrc
  · exact readyBehind_newest (newer := []) (drive_bench_of_other hl) rfl (by simp) rfl

/-- A change that puts another operand on an input of a component changes it now. -/
theorem change_readyBehind {p : Port} {x : Operand} {c : Component} (ht : s.change n p x = .next t)
    (hc : lookupName n (shapes s.bench) = some c)
    (hsrc : lookupName n (t.bench.map fun x => (x.name, x.source)) ≠ lookupName n (s.bench.map fun x => (x.name, x.source))) :
    t.ReadyBehind n (s.now + Config.tSettle c) := by
  rcases change_cases s n p x with ⟨r, hr⟩ | ⟨newer, y, older, call, hb, hy, hn, hp, -, -, hr⟩
  · rw [hr] at ht; cases ht
  · rw [hr] at ht
    cases ht
    have hcall : call.component = c := by
      rw [hb, shapes, lookupName_newest Instance.component hy hn, Option.some.injEq] at hc
      rw [setPort_component hp, source_call_component, hc]
    rw [lookupName_rewire hb hy hn, hb, lookupName_newest Instance.source hy hn, ne_eq, Option.some.injEq] at hsrc
    rw [← hcall]
    exact rewire_readyBehind hb hy hn (Ne.symm hsrc)

end Behind

/-- Settles O54: both forms of change leave the component changed now, and what is wired to it waits for it. -/
theorem redrivingUnsettlesDownstream : Obligations.RedrivingUnsettlesDownstream := by
  intro s n c rest
  refine ⟨fun v i h hd hsrc => ⟨_, step_drive h hd, ?_⟩, fun p x t h ht hc hsrc => ?_⟩
  · rw [← decode_component hd]
    exact drive_readyBehind (s := { s with actions := rest }) hsrc
  · rw [step_cons h] at ht
    exact change_readyBehind (s := { s with actions := rest }) ht hc hsrc

end Sys2Proof.Machine
end

section
/-! The formats of the vectors and their decoding (R30 to R36): encoding and decoding undo each other, each number of a component's width
is a vector of bits of its own, and stage i of the chain takes wire i of each bus. -/

namespace Sys2Proof.Machine

/-! ### Encoding and decoding (R32 to R34) -/

theorem encode_length {i : Instr} (h : i.wellFormed = true) : (encode i).length = inputWidth i.component := by
  cases i with
  | ha a b => exact Laws.VectorWidth.ha a b h
  | fa a b k => exact Laws.VectorWidth.fa a b k h
  | add32 a b => exact Laws.VectorWidth.add32 a b h

theorem wellFormed_add32 {a b : List Level} :
    (Instr.add32 a b).wellFormed = true ↔ a.length = wordWidth ∧ b.length = wordWidth := by
  simp only [Instr.wellFormed, busWellFormed, Bool.and_eq_true, beq_iff_eq]

/-- Decoding undoes encoding: on the 2W wires of an ADD32 vector, b is the first W and a the rest. -/
theorem decode_encode {i : Instr} (h : i.wellFormed = true) : decode i.component (encode i) = .ok i := by
  cases i with
  | ha a b => rfl
  | fa a b k => rfl
  | add32 a b =>
    obtain ⟨-, hb⟩ := wellFormed_add32.1 h
    have hlen : (b ++ a).length = 2 * wordWidth := encode_length h
    rw [Instr.component, encode, decode, if_pos hlen, List.drop_left' hb, List.take_left' hb]

/-- Settles O17: by cases on the operation; only the two buses of ADD32 have to be cut apart. -/
theorem decodeEncodeAgree : Obligations.DecodeEncodeAgree :=
  fun _ h => ⟨decode_encode h, encode_length h⟩

/-- Settles O18: the width decides whether the vector decodes, and what it decodes to has it as its encoding. -/
theorem decodesExactlyTheWidth : Obligations.DecodesExactlyTheWidth := by
  intro c v
  refine ⟨fun hlen => ?_, decode_of_length_ne⟩
  obtain ⟨i, hd⟩ := decode_of_length hlen
  obtain ⟨hwf, hencode⟩ := decode_ok hd
  exact ⟨i, hd, hwf, decode_component hd, hencode⟩

theorem getElem?_eq_busWire {x : List Level} {i : Nat} (h : i < x.length) : x[i]? = some (busWire x i) := by
  rw [busWire, List.getD_eq_getElem _ _ h, List.getElem?_eq_getElem h]

/-- Settles O19: the formats are those of `encode` and of the output wires; the wires of a stand W above those of b. -/
theorem formatsOfTheVectors : Obligations.FormatsOfTheVectors := by
  refine ⟨fun _ _ => rfl, fun _ _ _ => rfl, fun a b ha hb i hi => ⟨?_, ?_⟩, fun _ _ => ⟨rfl, rfl⟩, List.append_nil⟩
  · rw [encode, List.getElem?_append_left (by omega), getElem?_eq_busWire (by omega)]
  · rw [encode, List.getElem?_append_right (by omega), hb, Nat.add_sub_cancel_left, getElem?_eq_busWire (by omega)]

/-! ### The numbers of a component's width (R7, R36) -/

section Numbers
variable {c : Component} {n m w : Nat} {i : Instr}

@[simp] theorem length_vectorOfNat (n w : Nat) : (vectorOfNat n w).length = n := by simp [vectorOfNat]

theorem isBit_of_mem_vectorOfNat {l : Level} (h : l ∈ vectorOfNat n w) : l.isBit = true := by
  obtain ⟨k, -, rfl⟩ := List.mem_map.1 h
  exact isBit_ofBit _

theorem ofBit_injective : Function.Injective Level.ofBit := Function.LeftInverse.injective isOne_ofBit

/-- A number of w bits is the only one with its vector. -/
theorem vectorOfNat_injOn (hn : n < 2 ^ w) (hm : m < 2 ^ w) (h : vectorOfNat w m = vectorOfNat w n) : m = n := by
  apply Nat.eq_of_testBit_eq
  intro k
  by_cases hk : k < w
  · exact ofBit_injective (List.map_inj_left.1 h k (List.mem_range.2 hk))
  · have hpow : 2 ^ w ≤ 2 ^ k := Nat.pow_le_pow_right (by decide) (by omega)
    rw [Nat.testBit_lt_two_pow (hm.trans_le hpow), Nat.testBit_lt_two_pow (hn.trans_le hpow)]

theorem decodeBits_of_lt (h : w < 2 ^ n) (hd : decode c (vectorOfNat n w) = .ok i) : decodeBits c n w = some i := by
  rw [decodeBits, if_pos h, hd]
  rfl

/-- The encoding of what a number decodes to is the vector of that number. -/
theorem encode_of_decodeBits (h : decodeBits c n w = some i) : encode i = vectorOfNat n w := by
  unfold decodeBits at h
  split at h
  · cases hd : decode c (vectorOfNat n w) with
    | error e => rw [hd] at h; cases h
    | ok j =>
      rw [hd] at h
      cases h
      exact (decode_ok hd).2
  · cases h

end Numbers

/-- A vector is legal where each wire of its encoding carries a bit. -/
theorem allBits_of_encode {i : Instr} (hwf : i.wellFormed = true) (h : ∀ l ∈ encode i, l.isBit = true) : AllBits i := by
  cases i with
  | ha a b => exact (allBits_ha a b).2 ⟨h a (by simp [encode]), h b (by simp [encode])⟩
  | fa a b k => exact (allBits_fa a b k).2 ⟨h a (by simp [encode]), h b (by simp [encode]), h k (by simp [encode])⟩
  | add32 a b =>
    obtain ⟨ha, hb⟩ := wellFormed_add32.1 hwf
    refine (allBits_add32 a b).2 fun j hj => ⟨h _ ?_, h _ ?_⟩
    · exact List.mem_append_right b (List.mem_of_getElem? (getElem?_eq_busWire (ha ▸ hj)))
    · exact List.mem_append_left a (List.mem_of_getElem? (getElem?_eq_busWire (hb ▸ hj)))

/-- Settles O20: the number's vector has the width and carries bits, and what it decodes to encodes that vector alone. -/
theorem everyBitVectorIsLegal : Obligations.EveryBitVectorIsLegal := by
  intro c n hn
  obtain ⟨i, hd⟩ := decode_of_length (length_vectorOfNat (inputWidth c) n)
  obtain ⟨hwf, hencode⟩ := decode_ok hd
  have hbits : AllBits i := allBits_of_encode hwf fun l hl => isBit_of_mem_vectorOfNat (hencode ▸ hl)
  refine ⟨i, decodeBits_of_lt hn hd, decode_component hd, fun s => ⟨_, exec_allBits hbits s⟩, fun m hm hdm => ?_⟩
  exact vectorOfNat_injOn hn hm ((encode_of_decodeBits hdm).symm.trans hencode)

/-! ### What a stage takes (R31) -/

/-- On bits a full adder whose carryIn is 0 is a half adder (R43). -/
theorem fullAdd_false (a b : Bool) : fullAdd a b false = halfAdd a b := by
  simp [fullAdd, halfSum, halfAdd]

/-- A stage is the full adder of its own two bits and of the carry from below, 0 for stage 0 (R43, R44). -/
theorem stage_eq_fullAdd {w : Nat} (a b : BitVec w) (i : Nat) :
    stage a b i = fullAdd (a.getLsbD i) (b.getLsbD i) (if i = 0 then false else carryNet a b (i - 1)) := by
  cases i with
  | zero => rw [if_pos rfl, fullAdd_false]; rfl
  | succ i => rfl

/-- Settles O9: a bus read as bits has wire i in bit i, and a right shift by i brings bit i down to bit 0. -/
theorem stageTakesItsOwnBits : Obligations.StageTakesItsOwnBits := by
  refine ⟨fun a b i hi => ⟨getLsbD_busBits a hi, getLsbD_busBits b hi, ?_⟩, fun w x i hi => ⟨?_, ?_⟩⟩
  · rw [stage_eq_fullAdd, getLsbD_busBits a hi, getLsbD_busBits b hi]
  · rw [BitVec.getLsbD_ushiftRight, Nat.add_zero]
  · have h0 : ¬ w ≤ 0 := Nat.not_le.2 (Nat.zero_lt_of_lt hi)
    rw [BitVec.getLsbD_sshiftRight, Nat.add_zero, if_pos hi, decide_eq_false h0, Bool.not_false, Bool.true_and]

end Sys2Proof.Machine
end

section
/-! What the operands of a stimulus line read, and which lines go on (R7, R8, R35 to R37). -/

namespace Sys2Proof.Machine

/-! ### What operands read (R7, R8, R16 to R18) -/

section Operands
variable {s : State} {n : Name} {o : Outputs}

/-- What a name settles to is on the output wires of its view. -/
theorem look_of_output (h : s.output n = some o) : ∃ d, lookupName n s.look = some d ∧ d.outputs = o := by
  obtain ⟨d, hd, ho⟩ := Option.bind_eq_some_iff.1 h
  unfold Node.settled at ho
  split at ho
  · exact ⟨d, hd, Option.some.inj ho⟩
  · cases ho

theorem levels_sum (h : s.output n = some o) : (Operand.sum n).levels s.look = o.sumWires := by
  obtain ⟨d, hd, rfl⟩ := look_of_output h
  simp only [Operand.levels, hd, Option.map_some, Option.getD_some]

theorem levels_carry (h : s.output n = some o) : (Operand.carry n).levels s.look = o.carryWires := by
  obtain ⟨d, hd, rfl⟩ := look_of_output h
  simp only [Operand.levels, hd, Option.map_some, Option.getD_some]

theorem levels_sumBit (h : s.output n = some o) (i : Nat) : (Operand.sumBit n i).levels s.look = o.sumWires[i]?.toList := by
  rw [← levels_sum h]
  rfl

/-- The port `sum` of what a name settles to has the width of its component's (R16 to R18, R46). -/
theorem length_sumWires_of_output (h : s.output n = some o) : o.sumWires.length = sumWidth o.component := by
  obtain ⟨d, hd, rfl⟩ := look_of_output h
  exact sumWires_length hd

/-- The ports of a half or full adder, which have the same wires, read through a name. -/
theorem levels_of_single_wires {sum carry : Level} (h : s.output n = some o) (hs : o.sumWires = [sum])
    (hc : o.carryWires = [carry]) :
    (Operand.sum n).levels s.look = [sum] ∧ (Operand.carry n).levels s.look = [carry] ∧
      (Operand.sumBit n 0).levels s.look = [sum] :=
  ⟨(levels_sum h).trans hs, (levels_carry h).trans hc, by rw [levels_sumBit h, hs]; rfl⟩

theorem hostNot_ofBit (b : Bool) : hostNot (Level.ofBit b) = Level.ofBit !b := by cases b <;> rfl

end Operands

/-- Settles O49: each form reads the wires of the view under its name, and a ripple adder's `sum` has W of them. -/
theorem operandsReadTheirWires : Obligations.OperandsReadTheirWires := by
  intro s
  refine ⟨fun _ => rfl, fun n sum carry h => ?_, fun n sum h => ⟨levels_sum h, fun i hi => ?_⟩, fun x bs h => ?_, fun _ _ => rfl⟩
  · rcases h with h | h <;> exact levels_of_single_wires h rfl rfl
  · have hlen : i < sum.length := (length_sumWires_of_output h).symm ▸ hi
    have hwire : sum[i]? = some sum[i] := List.getElem?_eq_getElem hlen
    exact ⟨sum[i], hwire, (levels_sumBit h i).trans (congrArg Option.toList hwire)⟩
  · rw [Operand.levels, h, List.map_map]
    exact List.map_congr_left fun b _ => hostNot_ofBit b

/-- Settles O50: the vector of a line is the encoding of the operation with its operands' levels. -/
theorem linePresentsItsOperands : Obligations.LinePresentsItsOperands := by
  intro s a b k p q r
  refine ⟨fun ha hb => ⟨?_, fun hk => ?_⟩, fun ha hb => ?_⟩
  · rw [Call.vector, ha, hb]
    rfl
  · rw [Call.vector, ha, hb, hk]
    rfl
  · exact decode_encode (i := .add32 (a.levels s.look) (b.levels s.look)) (wellFormed_add32.2 ⟨ha, hb⟩)

/-! ### The check of a line (R36, R37) -/

section Check
variable {sh : List (Name × Component)}

/-- The operands of a call that is not refused have as many levels as its component has input wires. -/
theorem vector_length (k : Nat) {bench : List Instance} {c : Call} (h : c.check (shapes bench) = none) :
    (c.vector (nodes k bench)).length = inputWidth c.component := by
  have hport : ∀ q ∈ c.ports, (q.2.2.levels (nodes k bench)).length = q.2.1 := fun q hq =>
    (levels_length k bench q.2.2).trans (check_ports h q hq).2
  cases c <;>
    simp only [Call.ports, List.forall_mem_cons, List.not_mem_nil, false_imp_iff, implies_true, and_true] at hport <;>
    simp only [Call.vector, List.length_append, hport] <;> rfl

/-- A line that is not refused decodes. -/
theorem decode_of_check {s : State} {l : Line} (h : l.call.check (shapes s.bench) = none) :
    ∃ i, decode l.call.component (l.call.vector s.look) = .ok i := decode_of_length (vector_length s.draws h)

/-- A call is not refused exactly where each of its operands fits its port. -/
theorem Call.check_none_iff_fits (c : Call) : c.check sh = none ↔ c.Fits sh := by
  rw [Call.check, List.findSome?_eq_none_iff]
  cases c <;> simp [Call.ports, checkPort_none_iff, Call.Fits]

/-- What is refused in an operand as unbound is a name it refers to. -/
theorem Operand.check_eq_unbound {n : Name} {x : Operand} (h : x.check sh = some (.unknownBinding n)) :
    x.refersTo n = true ∧ lookupName n sh = none := by
  induction x with
  | lit ls => cases h
  | sum m | carry m | sumBit m i =>
    simp only [Operand.check] at h
    split at h <;> simp_all [Operand.refersTo]
  | inv x ih => exact ih h
  | cat x y ihx ihy =>
    rw [Operand.refersTo, Bool.or_eq_true]
    rcases Option.or_eq_some_iff.1 h with hx | ⟨-, hy⟩
    · exact ⟨.inl (ihx hx).1, (ihx hx).2⟩
    · exact ⟨.inr (ihy hy).1, (ihy hy).2⟩

/-- An operand that is not refused refers to bound names only. -/
theorem Operand.bound_of_check {n : Name} {x : Operand} (h : x.check sh = none) (hx : x.refersTo n = true) :
    lookupName n sh ≠ none := by
  induction x with
  | lit ls => cases hx
  | sum m | carry m | sumBit m i =>
    obtain rfl : m = n := beq_iff_eq.1 hx
    intro hm
    simp [Operand.check, hm] at h
  | inv x ih => exact ih h hx
  | cat x y ihx ihy =>
    obtain ⟨hcx, hcy⟩ := Option.or_eq_none_iff.1 h
    rcases Bool.or_eq_true_iff.1 hx with hx | hx
    · exact ihx hcx hx
    · exact ihy hcy hx

theorem Call.bound_of_check {n : Name} {c : Call} (h : c.check sh = none) (hc : c.refersTo n = true) : lookupName n sh ≠ none := by
  obtain ⟨q, hq, hn⟩ := Call.refersTo_iff.1 hc
  exact Operand.bound_of_check (check_ports h q hq).1 hn

theorem Call.check_eq_unbound {n : Name} {c : Call} (h : c.check sh = some (.unknownBinding n)) :
    c.refersTo n = true ∧ lookupName n sh = none := by
  obtain ⟨q, hq, hport⟩ := List.exists_of_findSome?_eq_some h
  rcases Option.or_eq_some_iff.1 hport with hx | ⟨-, hwidth⟩
  · obtain ⟨hrefers, hn⟩ := Operand.check_eq_unbound hx
    exact ⟨Call.refersTo_iff.2 ⟨q, hq, hrefers⟩, hn⟩
  · split at hwidth <;> cases hwidth

end Check

/-- Settles O31: what the check has shown of each operand gives the vector its component's width. -/
theorem checkedLineDecodes : Obligations.CheckedLineDecodes := by
  intro s l h
  obtain ⟨i, hd⟩ := decode_of_check h
  exact ⟨i, hd, (decode_ok hd).1⟩

/-! ### Lines that go on and lines that are refused (R37) -/

section Steps
variable {s : State} {l : Line} {rest : List Action}

/-- An evaluation goes on, with its fault, if there is one, marked, also where its sample is drawn. -/
theorem sampleWired_exec_goes_on (s : State) (n : Name) (k : Nat) (c : Component) (steady : Bool) (i : Instr) :
    ∃ t, s.noteFault n (State.sampleWired k c steady (exec i s)) = .next t := by
  by_cases hb : AllBits i
  · exact ⟨_, by rw [exec_allBits hb]; rfl⟩
  · exact ⟨_, by rw [exec_nonBits hb]; rfl⟩

theorem step_line_goes_on (h : s.actions = .stimulus l :: rest) (hc : l.call.check (shapes s.bench) = none) :
    ∃ t, step s = .next t ∧ t.actions = rest := by
  obtain ⟨i, hd⟩ := decode_of_check hc
  obtain ⟨t, ht⟩ := sampleWired_exec_goes_on (State.place { s with actions := rest } l) l.name s.bench.length l.call.component
    (l.call.steady s.look) i
  have hstep := (step_line h hc hd).trans ht
  exact ⟨t, hstep, (runLine_frame ((step_cons h).symm.trans hstep)).2⟩

theorem step_line_of_check_ne_none (h : s.actions = .stimulus l :: rest) (hc : l.call.check (shapes s.bench) ≠ none) :
    ∃ r, step s = .refused r := by
  obtain ⟨r, hr⟩ := Option.ne_none_iff_exists'.1 hc
  exact ⟨_, step_line_refused h hr⟩

end Steps

/-- Settles O56: the check asks of each operand that it fits its port, and a line that passes it decodes and runs. -/
theorem lineGoesOnExactlyWhenItFits : Obligations.LineGoesOnExactlyWhenItFits := by
  intro s l
  have hiff := l.call.check_none_iff_fits (sh := shapes s.bench)
  exact ⟨hiff, fun rest h => ⟨fun hfit => step_line_goes_on h (hiff.2 hfit),
    fun hfit => step_line_of_check_ne_none h (mt hiff.1 hfit)⟩⟩

/-- Settles O32: what the check finds unbound is a name the line refers to, and its first operand without a meaning names it. -/
theorem unboundReferenceRefused : Obligations.UnboundReferenceRefused := by
  rintro s l rest n named h rfl
  have refused (hc : l.call.check (shapes s.bench) = some (.unknownBinding n)) := step_line_refused h hc
  refine ⟨fun hrefers hn => ?_, fun hc => ⟨refused hc, Call.check_eq_unbound hc⟩, ?_⟩
  · exact step_line_of_check_ne_none h fun hc => Call.bound_of_check hc hrefers hn
  · intro before p w y after x hports hbefore hn hx hy
    have hfits : ∀ q ∈ before, q.2.2.Fits (shapes s.bench) q.2.1 := fun q hq => (check_none_iff _ _ _).1 (hbefore q hq)
    have hwithin : y.check (shapes s.bench) = some (.unknownBinding n) := by
      refine check_within (check_unbound hx hn).1 (hy.imp_right (Or.imp_right (Or.imp_right ?_)))
      rintro ⟨z, rfl, hz⟩
      exact ⟨z, _, rfl, (check_none_iff _ _ _).1 ⟨hz, rfl⟩⟩
    exact refused (check_first_misfit hports hfits (checkPort_of_check hwithin))

end Sys2Proof.Machine
end

section
/-! Input wires that carry no bit (R35, R54, R55, R63): an evaluation, a stimulus line and a sample of a component that has settled each
list exactly those wires. -/

namespace Sys2Proof.Machine

/-! ### Evaluations and stimulus lines (R35, R55) -/

theorem not_allBits_iff {i : Instr} : ¬ AllBits i ↔ ∃ w l, (w, l) ∈ inputWires i ∧ l.isBit = false := by
  rw [AllBits, List.eq_nil_iff_forall_not_mem, not_forall_not]
  simp only [mem_nonBitWires]

/-- Settles O22: an evaluation that is not of bits faults with the wires that carry none. -/
theorem nonBinaryInputFaults : Obligations.NonBinaryInputFaults :=
  fun _ s h => ⟨_, exec_nonBits (not_allBits_iff.2 h) s, fun _ => mem_nonBitWires⟩

/-- Settles O47: the line's evaluation faults, drawn or not, and its fault is marked in the state with its component placed. -/
theorem faultedLineIsMarked : Obligations.FaultedLineIsMarked := by
  intro s l rest i h hc hd hnon
  have hstep := step_line h hc hd
  rw [exec_nonBits (not_allBits_iff.2 hnon), State.sampleWired_fault, State.noteFault_fault] at hstep
  exact ⟨_, _, hstep, rfl, rfl, rfl, fun _ => mem_nonBitWires⟩

/-! ### A component that has settled once (R35, R63) -/

section SettledOnce
variable {s : State} {n : Name} {c : Component} {v v' : List Level} {i j : Instr} {rest : List Action} {newer older : List Instance}

/-- A driven name has a newest component that its levels drive, since now or since a time at which a component last changed before. -/
theorem drive_newest (s : State) (n : Name) (i : Instr) :
    ∃ newer since once older, (s.drive n i).bench = newer ++ ⟨n, .driven (Call.ofInstr i), since, once⟩ :: older ∧
      (∀ z ∈ newer, z.name ≠ n) ∧ (since = s.now ∨ ∃ x ∈ s.bench, since = x.changedAt) := by
  by_cases hl : lookupName n (shapes s.bench) = some i.component
  · obtain ⟨newer, x, older, hb, hx, -, hn⟩ := lookupName_split Instance.component n s.bench hl
    obtain ⟨newer', ⟨_, _, since, once⟩, older', hb', rfl, hn', rfl, hsince, -, -⟩ :=
      rewire_newest s n (Call.ofInstr i) hb hx hn
    rw [drive_eq_rewire hl]
    refine ⟨newer', since, once, older', hb', hn', ?_⟩
    rw [show since = _ from hsince]
    split
    · exact .inr ⟨x, by simp [hb], rfl⟩
    · exact .inl rfl
  · exact ⟨[], s.now, false, s.bench, drive_bench_of_other hl, by simp, .inl rfl⟩

/-- A drive leaves what the host has still to do, and does not look at it. -/
theorem drive_with_actions (s : State) (rest : List Action) (n : Name) (i : Instr) :
    State.drive { s with actions := rest } n i = { s.drive n i with actions := rest } := by
  unfold State.drive
  split <;> rfl

/-- A drive and a hold drive the name and let the time pass. -/
theorem run_drive_hold {d : Nat} (h : s.actions = .drive n c v :: .hold d :: rest) (hd : decode c v = .ok i) (m : Nat) :
    core.run (m + 2) s = core.run m { s.drive n i with actions := rest, now := s.now + d } := by
  have hdrive : step s = .next { s.drive n i with actions := .hold d :: rest } := by
    rw [step_drive h hd, drive_with_actions]
  have hheld : step { s.drive n i with actions := .hold d :: rest } =
      .next { s.drive n i with actions := rest, now := s.now + d } := by
    rw [step_cons rfl, State.perform, State.drive_now]
  rw [run_next hdrive, run_next hheld]

/-- A component that has settled when it is rewired to another call remembers it. -/
theorem rewire_remembers {src : Source} {call : Call} {since : Nat} {once : Bool}
    (hb : s.bench = newer ++ ⟨n, src, since, once⟩ :: older) (hn : ∀ z ∈ newer, z.name ≠ n) (hsrc : src ≠ .driven call)
    (hset : (Instance.node s.draws (nodes s.draws older) ⟨n, src, since, once⟩).settledBy s.now = true) :
    ∃ newer' older', (s.rewire n call).bench = newer' ++ ⟨n, .driven call, s.now, true⟩ :: older' ∧ ∀ z ∈ newer', z.name ≠ n := by
  obtain ⟨newer', hrem, hnames⟩ := remember_append s.draws s.now newer older ⟨n, src, since, once⟩
  have hn' : ∀ z ∈ newer', z.name ≠ n := by
    have hmem : ∀ m ∈ newer'.map Instance.name, m ≠ n := by simpa [hnames] using hn
    simpa using hmem
  have hredrive := redrive_newest (older := remember s.draws s.now older) (x := ⟨n, src, since, true⟩) (.driven call) s.now rfl hn'
  refine ⟨newer', remember s.draws s.now older, ?_, hn'⟩
  rw [hset, Bool.or_true] at hrem
  rw [State.rewire_bench, hb, hrem, hredrive, if_neg hsrc]

/-- Levels of bits and levels that are not all bits are not the same source. -/
theorem ofInstr_source_ne (hd : decode c v = .ok i) (hbits : AllBits i) (hd' : decode c v' = .ok j) (hnon : ¬ AllBits j) :
    Source.driven (Call.ofInstr i) ≠ .driven (Call.ofInstr j) := by
  intro heq
  have hsame := decode_ofInstr hd []
  rw [Source.driven.inj heq, decode_ofInstr hd' [], Except.ok.injEq] at hsame
  exact hnon (hsame ▸ hbits)

/-- A component that levels of bits drive has settled its settle time after they last changed (R65). -/
theorem settledBy_of_bits {k t since : Nat} {b : Bool} {ns : List (Name × Node)} (hd : decode c v = .ok i) (hbits : AllBits i)
    (ht : since + Config.tSettle c ≤ t) : (Instance.node k ns ⟨n, .driven (Call.ofInstr i), since, b⟩).settledBy t = true := by
  rw [Instance.node_driven (decode_ofInstr hd ns)]
  simp [Node.settledBy, Node.settles, ruleResult_of_allBits hbits, EvalResult.isOutputs, decode_component hd, ht]

/-- A component that has settled once faults when it is sampled, its settle time after levels that are not all bits drive it (R35). -/
theorem step_sample_nonBits {since : Nat} (h : s.actions = .sample n :: rest)
    (hb : s.bench = newer ++ ⟨n, .driven (Call.ofInstr j), since, true⟩ :: older) (hn : ∀ z ∈ newer, z.name ≠ n)
    (hd : decode c v = .ok j) (hnon : ¬ AllBits j) (ht : since + Config.tSettle c ≤ s.now) :
    step s = .next
      { s with actions := rest, sampled := none, faults := (n, .nonBinaryInput (nonBitWires j)) :: s.faults } := by
  have hready : (Call.ofInstr j).steady (nodes s.draws older) = true ∧
      max since ((Call.ofInstr j).readyAt (nodes s.draws older)) + Config.tSettle (Call.ofInstr j).component ≤ s.now := by
    simp [decode_component hd, ht]
  rw [step_sample h hb rfl hn]
  simp only [State.sampleInstance, Instance.node_driven (decode_ofInstr hd _), if_pos hready, ruleResult_of_not_allBits hnon]
  rfl

/-- A component that has settled on bits, then driven with levels that are not all bits, held and sampled, faults (R35, R63). -/
theorem run_drive_hold_sample_nonBits {d since : Nat} {once : Bool}
    (h : s.actions = .drive n c v' :: .hold d :: .sample n :: rest)
    (hb : s.bench = newer ++ ⟨n, .driven (Call.ofInstr i), since, once⟩ :: older) (hn : ∀ z ∈ newer, z.name ≠ n)
    (hd : decode c v = .ok i) (hbits : AllBits i) (hset : since + Config.tSettle c ≤ s.now)
    (hd' : decode c v' = .ok j) (hnon : ¬ AllBits j) (hhold : Config.tSettle c ≤ d) :
    ∃ t, core.run 3 s = .next t ∧ t.sampled = none ∧ t.faults = (n, .nonBinaryInput (nonBitWires j)) :: s.faults ∧
      t.actions = rest := by
  have hkind : lookupName n (shapes s.bench) = some j.component := by
    have hnewest := lookupName_newest (older := older) (x := ⟨n, .driven (Call.ofInstr i), since, once⟩) Instance.component rfl hn
    rw [hb, shapes, hnewest, Instance.component_driven, ofInstr_component, decode_component hd, decode_component hd']
  obtain ⟨newer', older', hb', hn'⟩ := rewire_remembers hb hn (ofInstr_source_ne hd hbits hd' hnon)
    (settledBy_of_bits hd hbits hset)
  rw [run_drive_hold h hd' 1, drive_eq_rewire hkind]
  have hsample := step_sample_nonBits
    (s := { s.rewire n (Call.ofInstr j) with actions := .sample n :: rest, now := s.now + d })
    rfl hb' hn' hd' hnon (Nat.add_le_add_left hhold _)
  exact ⟨_, (run_next hsample 0).trans (run_zero _), rfl, rfl, rfl⟩

end SettledOnce

/-- Settles O52: the first hold lets the component settle on bits, the second drive remembers that, and the sample after the second
hold is the fault. -/
theorem settledComponentFaultsOnNonBits : Obligations.SettledComponentFaultsOnNonBits := by
  intro s n c v v' d d' rest i j hinv h hhold hhold' hd hbits hd' hnon
  obtain ⟨newer, since, once, older, hb, hn, hsince⟩ := drive_newest s n i
  have hpast : since ≤ s.now := by
    rcases hsince with rfl | ⟨x, hx, rfl⟩
    · exact Nat.le_refl _
    · exact hinv.past x hx
  rw [run_drive_hold h hd 3]
  obtain ⟨t, hrun, hsampled, hfaults, hactions⟩ := run_drive_hold_sample_nonBits
    (s := { s.drive n i with actions := .drive n c v' :: .hold d' :: .sample n :: rest, now := s.now + d })
    rfl hb hn hd hbits (Nat.add_le_add hpast hhold) hd' hnon hhold'
  exact ⟨t, _, hrun, hsampled, hfaults.trans (by rw [State.drive_faults]), hactions, fun _ => mem_nonBitWires⟩

end Sys2Proof.Machine
end

section
/-! The half adder (R38 to R40): what HA and FA sample of bits, and the arithmetic of `halfAdd`. -/

namespace Sys2Proof.Machine

variable {a b k : Level}

/-- HA of bits completes and samples the sum and the carry of `halfAdd` (R38). -/
theorem exec_ha_bits (ha : a.isBit = true) (hb : b.isBit = true) (s : State) : ∃ t, exec (.ha a b) s = .next t ∧
    t.sampled = some (.halfAdder (.ofBit (halfAdd a.isOne b.isOne).sum) (.ofBit (halfAdd a.isOne b.isOne).carry)) :=
  ⟨_, exec_allBits ((allBits_ha a b).2 ⟨ha, hb⟩) s, rfl⟩

/-- HA faults where an input carries no bit (R35, R38). -/
theorem exec_ha_nonBits (h : a.isBit = false ∨ b.isBit = false) (s : State) :
    ∃ ws, exec (.ha a b) s = .fault (.nonBinaryInput ws) := by
  refine ⟨_, exec_nonBits (fun hbits => ?_) s⟩
  obtain ⟨ha, hb⟩ := (allBits_ha a b).1 hbits
  simp [ha, hb] at h

/-- FA of bits completes and samples the sum and the carry of `fullAdd` (R41). -/
theorem exec_fa_bits (ha : a.isBit = true) (hb : b.isBit = true) (hk : k.isBit = true) (s : State) :
    ∃ t, exec (.fa a b k) s = .next t ∧
      t.sampled = some (.fullAdder (.ofBit (fullAdd a.isOne b.isOne k.isOne).sum)
        (.ofBit (fullAdd a.isOne b.isOne k.isOne).carry)) :=
  ⟨_, exec_allBits ((allBits_fa a b k).2 ⟨ha, hb, hk⟩) s, rfl⟩

theorem exec_ha_ofBit (a b : Bool) (s : State) : ∃ t, exec (.ha (.ofBit a) (.ofBit b)) s = .next t ∧
    t.sampled = some (.halfAdder (.ofBit (halfAdd a b).sum) (.ofBit (halfAdd a b).carry)) := by
  simpa only [isOne_ofBit] using exec_ha_bits (isBit_ofBit a) (isBit_ofBit b) s

theorem exec_fa_ofBit (a b k : Bool) (s : State) : ∃ t, exec (.fa (.ofBit a) (.ofBit b) (.ofBit k)) s = .next t ∧
    t.sampled = some (.fullAdder (.ofBit (fullAdd a b k).sum) (.ofBit (fullAdd a b k).carry)) := by
  simpa only [isOne_ofBit] using exec_fa_bits (isBit_ofBit a) (isBit_ofBit b) (isBit_ofBit k) s

/-- Two equal bits have no sum, and their carry is the bit (R38). -/
theorem halfAdd_self (a : Bool) : halfAdd a a = { sum := false, carry := a } := by
  simp [halfAdd]

theorem halfAdd_comm (a b : Bool) : halfAdd a b = halfAdd b a := by
  simp [halfAdd, Bool.xor_comm, Bool.and_comm]

theorem two_mul_carry_add_sum_halfAdd (a b : Bool) :
    2 * (halfAdd a b).carry.toNat + (halfAdd a b).sum.toNat = a.toNat + b.toNat := by
  cases a <;> cases b <;> rfl

/-- The lowest wire of a vector counts 1 and doubles what is above it (R7). -/
theorem levelsValue_ofBit_cons (b : Bool) (v : List Level) : levelsValue (.ofBit b :: v) = b.toNat + 2 * levelsValue v := by
  cases b <;> rfl

/-- The vector `{carry, sum}` read as a number: the carry counts double (R32, R39). -/
theorem levelsValue_halfAdder_vector (sum carry : Bool) :
    levelsValue (Outputs.halfAdder (.ofBit sum) (.ofBit carry)).vector = 2 * carry.toNat + sum.toNat := by
  change levelsValue [.ofBit sum, .ofBit carry] = _
  rw [levelsValue_ofBit_cons, levelsValue_ofBit_cons]
  exact Nat.add_comm _ _

/-- Settles O1: bits are sampled as `halfAdd` of them, and a bit on both inputs is the carry alone. -/
theorem halfAdderEvaluation : Obligations.HalfAdderEvaluation := by
  intro a b s
  have same {c : Level} (hc : c.isBit = true) : ∃ t, exec (.ha c c) s = .next t ∧ t.sampled = some (.halfAdder .zero c) := by
    have hrun := exec_ha_bits hc hc s
    rwa [halfAdd_self, ofBit_isOne hc] at hrun
  exact ⟨rfl, fun ha hb => exec_ha_bits ha hb s, fun h => exec_ha_nonBits h s, same, same rfl⟩

/-- Settles O2: the sampled vector counts the carry double, and so does `halfAdd` of its inputs. -/
theorem halfAdderCountsItsInputs : Obligations.HalfAdderCountsItsInputs := by
  intro a b s
  obtain ⟨t, hexec, hsampled⟩ := exec_ha_ofBit a b s
  have hcount := two_mul_carry_add_sum_halfAdd a b
  exact ⟨t, _, hexec, hsampled, (levelsValue_halfAdder_vector _ _).trans hcount, hcount⟩

/-- Settles O3: the three evaluations sample `halfAdd a b`, which is `halfAdd b a` and `fullAdd a b false`. -/
theorem halfAdderCommutes : Obligations.HalfAdderCommutes := by
  intro a b s
  obtain ⟨t, hab, hsab⟩ := exec_ha_ofBit a b s
  obtain ⟨u, hba, hsba⟩ := exec_ha_ofBit b a s
  obtain ⟨v, hfa, hsfa⟩ := exec_fa_ofBit a b false s
  rw [halfAdd_comm b a] at hsba
  rw [fullAdd_false] at hsfa
  exact ⟨t, u, v, _, _, hab, hsab, hba, hsba, hfa, hsfa⟩

end Sys2Proof.Machine
end

section
/-! The full adder (R41 to R43): what FA answers on a level that is no bit and in each order of its inputs, and the arithmetic of
`fullAdd`. -/

namespace Sys2Proof.Machine

/-- FA faults where an input carries no bit (R35, R41). -/
theorem exec_fa_nonBits {a b k : Level} (h : a.isBit = false ∨ b.isBit = false ∨ k.isBit = false) (s : State) :
    ∃ ws, exec (.fa a b k) s = .fault (.nonBinaryInput ws) := by
  refine ⟨_, exec_nonBits (fun hbits => ?_) s⟩
  obtain ⟨ha, hb, hk⟩ := (allBits_fa a b k).1 hbits
  simp [ha, hb, hk] at h

/-- Two equal bits are the carry, and pass carryIn on to the sum (R41). -/
theorem fullAdd_self (a k : Bool) : fullAdd a a k = { sum := k, carry := a } := by
  simp [fullAdd, halfSum]

theorem fullAdd_comm (a b k : Bool) : fullAdd b a k = fullAdd a b k := by
  simp [fullAdd, halfSum, Bool.xor_comm, Bool.and_comm]

/-- The carry of a full adder is the majority of its inputs (R42). -/
theorem carry_fullAdd (a b k : Bool) : (fullAdd a b k).carry = ((a && b) || (a && k) || (b && k)) := by
  cases a <;> cases b <;> cases k <;> rfl

theorem fullAdd_right_comm (a b k : Bool) : fullAdd a k b = fullAdd a b k := by
  cases a <;> cases b <;> cases k <;> rfl

theorem two_mul_carry_add_sum_fullAdd (a b k : Bool) :
    2 * (fullAdd a b k).carry.toNat + (fullAdd a b k).sum.toNat = a.toNat + b.toNat + k.toNat := by
  cases a <;> cases b <;> cases k <;> rfl

/-- In a number of two bits the upper one is set exactly from 2 on. -/
theorem upper_bit_iff_two_le {sum carry : Bool} {n : Nat} (h : 2 * carry.toNat + sum.toNat = n) : carry = true ↔ 2 ≤ n := by
  subst h
  cases carry <;> cases sum <;> decide

/-- The vector `{carry, sum}` of a full adder read as a number (R33, R42). -/
theorem levelsValue_fullAdder_vector (sum carry : Bool) :
    levelsValue (Outputs.fullAdder (.ofBit sum) (.ofBit carry)).vector = 2 * carry.toNat + sum.toNat :=
  levelsValue_halfAdder_vector sum carry

/-- On bits the next state of FA hangs on `fullAdd` of its inputs alone (R41). -/
theorem exec_fa_congr {a b k a' b' k' : Bool} (h : fullAdd a b k = fullAdd a' b' k') (s : State) :
    exec (.fa (.ofBit a) (.ofBit b) (.ofBit k)) s = exec (.fa (.ofBit a') (.ofBit b') (.ofBit k')) s := by
  have hbits (x y z : Bool) : AllBits (.fa (.ofBit x) (.ofBit y) (.ofBit z)) :=
    (allBits_fa _ _ _).2 ⟨isBit_ofBit x, isBit_ofBit y, isBit_ofBit z⟩
  rw [exec_allBits (hbits a b k), exec_allBits (hbits a' b' k')]
  simp only [settledOf, isOne_ofBit, h, Instr.component]

theorem exec_fa_comm (a b k : Bool) (s : State) :
    exec (.fa (.ofBit b) (.ofBit a) (.ofBit k)) s = exec (.fa (.ofBit a) (.ofBit b) (.ofBit k)) s :=
  exec_fa_congr (fullAdd_comm a b k) s

theorem exec_fa_right_comm (a b k : Bool) (s : State) :
    exec (.fa (.ofBit a) (.ofBit k) (.ofBit b)) s = exec (.fa (.ofBit a) (.ofBit b) (.ofBit k)) s :=
  exec_fa_congr (fullAdd_right_comm a b k) s

/-- Settles O4: bits are sampled as `fullAdd` of them, which on two equal bits is (carryIn, the bit) and with carryIn 0 is
`halfAdd`. -/
theorem fullAdderEvaluation : Obligations.FullAdderEvaluation := by
  intro a b k s
  have same {c l : Level} (hc : c.isBit = true) (hl : l.isBit = true) :
      ∃ t, exec (.fa c c l) s = .next t ∧ t.sampled = some (.fullAdder l c) := by
    have hrun := exec_fa_bits hc hc hl s
    rwa [fullAdd_self, ofBit_isOne hl, ofBit_isOne hc] at hrun
  have asHalfAdder (ha : a.isBit = true) (hb : b.isBit = true) : ∃ t sum carry, exec (.fa a b .zero) s = .next t ∧
      t.sampled = some (.fullAdder sum carry) ∧ ∃ u, exec (.ha a b) s = .next u ∧ u.sampled = some (.halfAdder sum carry) := by
    obtain ⟨t, hfa, hsfa⟩ := exec_fa_bits (k := .zero) ha hb rfl s
    rw [show Level.zero.isOne = false from rfl, fullAdd_false] at hsfa
    exact ⟨t, _, _, hfa, hsfa, exec_ha_bits ha hb s⟩
  exact ⟨rfl, fun ha hb hk => exec_fa_bits ha hb hk s, fun h => exec_fa_nonBits h s, same, asHalfAdder,
    same rfl rfl, same rfl rfl, exec_fa_bits rfl rfl rfl s⟩

/-- Settles O5: the sampled vector counts the carry double, so the carry is set exactly from two inputs on. -/
theorem fullAdderCountsItsInputs : Obligations.FullAdderCountsItsInputs := by
  intro a b k s
  obtain ⟨t, hexec, hsampled⟩ := exec_fa_ofBit a b k s
  have hcount := two_mul_carry_add_sum_fullAdd a b k
  exact ⟨t, _, _, hexec, hsampled, (levelsValue_fullAdder_vector _ _).trans hcount, hcount, upper_bit_iff_two_le hcount,
    carry_fullAdd a b k⟩

/-- Settles O6: every order of the inputs is reached by swapping the first two and the last two; with carryIn 0 both adders sample
`halfAdd`. -/
theorem fullAdderSymmetric : Obligations.FullAdderSymmetric := by
  intro a b k s
  obtain ⟨t, habk, hsampled⟩ := exec_fa_ofBit a b k s
  obtain ⟨u, hfa, hsfa⟩ := exec_fa_ofBit a b false s
  obtain ⟨v, hha, hsha⟩ := exec_ha_ofBit a b s
  have hakb := (exec_fa_right_comm a b k s).trans habk
  have hbak := (exec_fa_comm a b k s).trans habk
  have hbka := (exec_fa_right_comm b a k s).trans hbak
  have hkab := (exec_fa_comm a k b s).trans hakb
  have hkba := (exec_fa_comm b k a s).trans hbka
  have hvector : v.sampled.map Outputs.vector =
      some (Outputs.fullAdder (.ofBit (fullAdd a b false).sum) (.ofBit (fullAdd a b false).carry)).vector := by
    rw [hsha, fullAdd_false]; rfl
  exact ⟨t, _, habk, hsampled, hakb, hbak, hbka, hkab, hkba, fullAdd_false a b, u, v, _, hfa, hsfa, hha, hvector⟩

end Sys2Proof.Machine
end

section
/-! The ripple-carry adder (R44 to R52): the carry into stage i is the library's `BitVec.carry`, so the chain is its addition, and the laws
of the sum and of the carry nets are read off the two. -/

namespace Sys2Proof.Machine

variable {w : Nat}

/-! ### The chain and its closed form (R44, R52) -/

/-- Stage i is a full adder of its two bits and of the carry of the i bits below it. -/
theorem stage_eq_fullAdd_carry (a b : BitVec w) (i : Nat) :
    stage a b i = fullAdd (a.getLsbD i) (b.getLsbD i) (BitVec.carry i a b false) := by
  induction i with
  | zero => rw [BitVec.carry_zero, fullAdd_false]; rfl
  | succ i ih => rw [stage, ih, carry_fullAdd, BitVec.carry_succ, Bool.atLeastTwo]

/-- The carry net of a stage is what its bits and those below carry. -/
theorem carryNet_eq_carry (a b : BitVec w) (i : Nat) : carryNet a b i = BitVec.carry (i + 1) a b false := by
  rw [carryNet, stage_eq_fullAdd_carry, carry_fullAdd, BitVec.carry_succ, Bool.atLeastTwo]

theorem getLsbD_rippleSum (a b : BitVec w) {i : Nat} (h : i < w) : (rippleSum a b).getLsbD i = (stage a b i).sum :=
  getLsbD_bitsOf_of_lt _ h

/-- The chain adds: bit i of either side is the XOR of the operands' bits and of the carry from below. -/
theorem rippleSum_eq_add (a b : BitVec w) : rippleSum a b = a + b := by
  apply BitVec.eq_of_getLsbD_eq
  intro i hi
  rw [getLsbD_rippleSum a b hi, stage_eq_fullAdd_carry, BitVec.getLsbD_add hi]
  exact Bool.xor_assoc ..

/-- Settles O7: the sum bus and the carry nets are the two outputs of the stages, and the chain adds. -/
theorem rippleChainStructure : Obligations.RippleChainStructure := by
  intro w a b hw
  refine ⟨?_, fun i hi => ?_, rippleSum_eq_add a b⟩
  · rw [getLsbD_rippleSum a b hw]; rfl
  · rw [getLsbD_rippleSum a b hi]; rfl

/-! ### The unsigned law (R45 to R47) -/

theorem uval_rippleSum (a b : BitVec w) : uval (rippleSum a b) = (uval a + uval b) % 2 ^ w := by
  simp only [rippleSum_eq_add, uval_eq_toNat, BitVec.toNat_add]

/-- Wires of bits read as the sum of their weights. -/
theorem levelsValue_map_ofBit (f : Nat → Bool) (n : Nat) :
    levelsValue ((List.range n).map fun i => Level.ofBit (f i)) = ((List.range n).map fun i => (f i).toNat * 2 ^ i).sum := by
  induction n generalizing f with
  | zero => rfl
  | succ n ih =>
    rw [List.range_succ_eq_map, List.map_cons, List.map_cons, List.map_map, List.map_map, levelsValue_ofBit_cons, List.sum_cons,
      Nat.pow_zero, Nat.mul_one]
    congr 1
    calc 2 * levelsValue ((List.range n).map fun i => Level.ofBit (f (i + 1)))
        = 2 * ((List.range n).map fun i => (f (i + 1)).toNat * 2 ^ i).sum := by rw [ih fun i => f (i + 1)]
      _ = ((List.range n).map fun i => (f (i + 1)).toNat * 2 ^ (i + 1)).sum := by
          rw [← List.sum_map_mul_left]
          congr 2
          funext i
          ring

/-- A settled bus read as a vector of levels has the bus's unsigned value. -/
theorem levelsValue_busOf (x : BitVec w) : levelsValue (busOf x) = uval x := levelsValue_map_ofBit x.getLsbD w

/-- ADD32 of two words completes and samples the sum bus of the chain, of which the next state depends on nothing else (R45). -/
theorem exec_add32_busOf (a b : Word) (s : State) : exec (.add32 (busOf a) (busOf b)) s =
    .next { s with now := s.now + Config.tSettle .rippleCarryAdder32, sampled := some (.adder (busOf (rippleSum a b))) } := by
  rw [exec_allBits (allBits_busOf a b)]
  simp only [settledOf, busBits_busOf, Instr.component]

/-- Settles O11: the chain adds modulo 2^W, and ADD32 samples its sum bus. -/
theorem unsignedSumWraps : Obligations.UnsignedSumWraps := by
  refine ⟨fun w a b => uval_rippleSum a b, fun a b s => ⟨_, _, exec_add32_busOf a b s, rfl, ?_⟩⟩
  rw [levelsValue_busOf, uval_rippleSum]

/-! ### The evaluation (R45) -/

@[simp] theorem length_addText (w : Nat) (x y : Int) : (addText w x y).length = w := length_render _

/-- ADD32 faults where a wire of an operand carries no bit (R35, R45). -/
theorem exec_add32_nonBits {a b : List Level} {i : Nat} (hi : i < wordWidth)
    (h : (busWire a i).isBit = false ∨ (busWire b i).isBit = false) (s : State) :
    ∃ ws, exec (.add32 a b) s = .fault (.nonBinaryInput ws) := by
  refine ⟨_, exec_nonBits (fun hbits => ?_) s⟩
  obtain ⟨ha, hb⟩ := (allBits_add32 a b).1 hbits i hi
  simp [ha, hb] at h

/-- One bus on both inputs is doubled. -/
theorem rippleSum_self_eq_enc (x : BitVec w) : rippleSum x x = enc w (2 * uval x) := by
  apply eq_enc_of_uval
  rw [uval_rippleSum]
  push_cast
  rw [two_mul]

theorem rippleSum_self_eq_shiftLeft (x : BitVec w) : rippleSum x x = x <<< 1 := by
  apply BitVec.eq_of_toNat_eq
  rw [rippleSum_eq_add, BitVec.toNat_add, BitVec.toNat_shiftLeft, Nat.shiftLeft_eq, Nat.pow_one, Nat.mul_two]

/-- All ones plus one carries through every stage: bit 0 generates a carry, and each bit above passes it on. -/
theorem carryNet_allOnes_one {i : Nat} (h : i < w) : carryNet (BitVec.allOnes w) 1#w i = true := by
  induction i with
  | zero => simp [carryNet, stage, halfAdd, h]
  | succ i ih =>
    have hbelow : (stage (BitVec.allOnes w) 1#w i).carry = true := ih (by omega)
    simp [carryNet, stage, hbelow, carry_fullAdd, h]

/-- Settles O8: on bits ADD32 samples `settledOf`, and the cases of the rule are facts about the chain. -/
theorem rippleAdderEvaluation : Obligations.RippleAdderEvaluation := by
  refine ⟨fun a b s => ⟨fun ha hb => ?_, fun hbits => ?_, ?_⟩, fun w x y => ⟨rfl, length_addText w x y⟩,
    fun w x => ⟨rippleSum_self_eq_enc x, rippleSum_self_eq_shiftLeft x⟩, fun w i => carryNet_allOnes_one, by decide⟩
  · exact decode_encode (i := .add32 a b) (wellFormed_add32.2 ⟨ha, hb⟩)
  · exact ⟨_, exec_allBits ((allBits_add32 a b).2 hbits) s, rfl⟩
  · rintro ⟨i, hi, h⟩
    exact exec_add32_nonBits hi h s

/-! ### The discarded carry (R46) -/

/-- Sums that agree modulo 2^W are the same bus, whatever carry they discard. -/
theorem rippleSum_congr {a b a' b' : BitVec w} (h : (uval a + uval b) % 2 ^ w = (uval a' + uval b') % 2 ^ w) :
    rippleSum a b = rippleSum a' b' :=
  uval_injective (by rw [uval_rippleSum, uval_rippleSum, h])

/-- A full adder's carryIn can be told from its sum and its other two inputs, and so can its carry. -/
theorem fullAdd_carryIn_of_sum (a b k : Bool) : ((fullAdd a b k).sum ^^ a ^^ b) = k := by
  cases a <;> cases b <;> cases k <;> rfl

/-- The carry of a stage, recomputed from the ports of the adder. -/
theorem carryNet_eq_of_sum (a b : BitVec w) {i : Nat} (h : i < w) : carryNet a b i =
    (fullAdd (a.getLsbD i) (b.getLsbD i) ((rippleSum a b).getLsbD i ^^ a.getLsbD i ^^ b.getLsbD i)).carry := by
  rw [getLsbD_rippleSum a b h, carryNet, stage_eq_fullAdd_carry, fullAdd_carryIn_of_sum]

/-- Settles O10: what ADD32 samples is fixed by the sum modulo 2^W, and the top stage's sum tells its carryIn. -/
theorem sumWidthAndDiscardedCarry : Obligations.SumWidthAndDiscardedCarry := by
  refine ⟨fun a b s => ⟨_, _, exec_add32_busOf a b s, rfl, length_busOf _⟩, fun a b a' b' s h => ⟨_, exec_add32_busOf a b s, ?_⟩,
    fun w x y => ⟨length_render _, length_addText w x y⟩, fun w a b hw i hi => ?_⟩
  · rw [rippleSum_congr h, exec_add32_busOf]
  · subst hi
    exact carryNet_eq_of_sum a b (by omega)

/-! ### The signed law (R48) -/

/-- At most one shift by a multiple of 2^W brings an integer into the range of a word: two would be less than 2^W apart. -/
theorem wrap_unique (hw : 0 < w) {n j k : Int} (hj : -2 ^ (w - 1) ≤ n + j * 2 ^ w) (hj' : n + j * 2 ^ w < 2 ^ (w - 1))
    (hk : -2 ^ (w - 1) ≤ n + k * 2 ^ w) (hk' : n + k * 2 ^ w < 2 ^ (w - 1)) : j = k := by
  have hpow : (2 : Int) ^ w = 2 * 2 ^ (w - 1) := (mul_pow_sub_one hw.ne' 2).symm
  have hclose : |(j - k) * 2 ^ w| < 2 ^ w := by
    rw [sub_mul, abs_lt]
    omega
  have hlt : |j - k| < 1 := by
    rw [abs_mul, abs_of_pos (by positivity : (0 : Int) < 2 ^ w)] at hclose
    exact lt_of_mul_lt_mul_right (by rwa [one_mul]) (by positivity)
  exact sub_eq_zero.1 (Int.abs_lt_one_iff.1 hlt)

theorem sval_bounds (x : BitVec w) : -2 ^ (w - 1) ≤ sval x ∧ sval x < 2 ^ (w - 1) := by
  rw [sval_eq_toInt]
  exact ⟨x.le_toInt, x.toInt_lt⟩

/-- The k of the law brings the signed sum into the range of the word. -/
theorem signedWrap_bounds (hw : 0 < w) (a b : BitVec w) :
    -2 ^ (w - 1) ≤ sval a + sval b + signedWrap a b * 2 ^ w ∧ sval a + sval b + signedWrap a b * 2 ^ w < 2 ^ (w - 1) := by
  have hpow : (2 : Int) ^ w = 2 * 2 ^ (w - 1) := (mul_pow_sub_one hw.ne' 2).symm
  obtain ⟨ha, ha'⟩ := sval_bounds a
  obtain ⟨hb, hb'⟩ := sval_bounds b
  unfold signedWrap
  split
  · omega
  · split <;> omega

theorem signedWrap_cases (a b : BitVec w) : signedWrap a b = -1 ∨ signedWrap a b = 0 ∨ signedWrap a b = 1 := by
  unfold signedWrap
  split
  · exact .inr (.inr rfl)
  · split
    · exact .inr (.inl rfl)
    · exact .inl rfl

/-- The sum is the encoding of the signed sum. -/
theorem rippleSum_eq_enc_sval (a b : BitVec w) : rippleSum a b = enc w (sval a + sval b) := by
  rw [rippleSum_eq_add, enc, BitVec.ofInt_add, sval_eq_toInt, sval_eq_toInt, BitVec.ofInt_toInt, BitVec.ofInt_toInt]

/-- The signed sum wraps by some multiple of 2^W. -/
theorem exists_sval_rippleSum (a b : BitVec w) : ∃ k : Int, sval (rippleSum a b) = sval a + sval b + k * 2 ^ w := by
  have hdvd : (2 : Int) ^ w ∣ sval (rippleSum a b) - (sval a + sval b) := by
    have hmod : sval (rippleSum a b) = (sval a + sval b).bmod (2 ^ w) := by
      simp only [sval_eq_toInt, rippleSum_eq_add, BitVec.toInt_add]
    rw [hmod]
    simpa using Int.dvd_bmod_sub_self (x := sval a + sval b) (m := 2 ^ w)
  obtain ⟨k, hk⟩ := hdvd
  exact ⟨k, by rw [mul_comm k, ← hk]; ring⟩

/-- Settles O12: the multiple of 2^W by which the sum wraps puts it in range, and there is only one that does. -/
theorem signedSumWraps : Obligations.SignedSumWraps := by
  intro w a b hw
  obtain ⟨hlow, hhigh⟩ := signedWrap_bounds hw a b
  have hunique (k : Int) (hk : -2 ^ (w - 1) ≤ sval a + sval b + k * 2 ^ w) (hk' : sval a + sval b + k * 2 ^ w < 2 ^ (w - 1)) :
      k = signedWrap a b := wrap_unique hw hk hk' hlow hhigh
  refine ⟨?_, signedWrap_cases a b, hlow, hhigh, hunique, rippleSum_eq_enc_sval a b⟩
  obtain ⟨k, hk⟩ := exists_sval_rippleSum a b
  obtain ⟨hsum, hsum'⟩ := sval_bounds (rippleSum a b)
  rw [hk] at hsum hsum'
  rw [hk, hunique k hsum hsum']

/-! ### The carry nets (R49) -/

/-- The sub-bus of the low i + 1 bits is the remainder by 2^(i+1). -/
theorem uval_subBus_zero (x : BitVec w) (i : Nat) : uval (subBus x i 0) = uval x % 2 ^ (i + 1) := by
  rw [uval_eq_toNat, uval_eq_toNat, subBus, BitVec.extractLsb_toNat]
  rfl

/-- A carry net is set exactly where the low bits overflow. -/
theorem carryNet_iff (a b : BitVec w) (i : Nat) :
    carryNet a b i = true ↔ 2 ^ (i + 1) ≤ uval (subBus a i 0) + uval (subBus b i 0) := by
  rw [carryNet_eq_carry, BitVec.carry, uval_subBus_zero, uval_subBus_zero, uval_eq_toNat, uval_eq_toNat]
  simp

/-- A bit set exactly from p on is the quotient by p of a number below 2p. -/
theorem toNat_eq_div {c : Bool} {n p : Nat} (h : c = true ↔ p ≤ n) (hn : n < 2 * p) : c.toNat = n / p := by
  cases c with
  | false => exact (Nat.div_eq_of_lt (by simpa using h)).symm
  | true => exact (Nat.div_eq_of_lt_le (by simpa using h) (by simpa using hn)).symm

/-- The low bits of the operands add to less than twice 2^(i+1), so a carry net is their quotient by it. -/
theorem toNat_carryNet (a b : BitVec w) (i : Nat) :
    (carryNet a b i).toNat = (uval (subBus a i 0) + uval (subBus b i 0)) / 2 ^ (i + 1) := by
  have ha : uval (subBus a i 0) < 2 ^ (i + 1) := uval_lt _
  have hb : uval (subBus b i 0) < 2 ^ (i + 1) := uval_lt _
  exact toNat_eq_div (carryNet_iff a b i) (by omega)

/-- The low bits of the sum are those of the sum of the low bits. -/
theorem uval_subBus_rippleSum (a b : BitVec w) {i : Nat} (h : i < w) :
    uval (subBus (rippleSum a b) i 0) = (uval (subBus a i 0) + uval (subBus b i 0)) % 2 ^ (i + 1) := by
  simp only [uval_subBus_zero, uval_rippleSum]
  rw [Nat.mod_mod_of_dvd _ (Nat.pow_dvd_pow 2 h), Nat.add_mod]

theorem uval_subBus_top (hw : 0 < w) (x : BitVec w) : uval (subBus x (w - 1) 0) = uval x := by
  rw [uval_subBus_zero, Nat.sub_add_cancel hw, Nat.mod_eq_of_lt (uval_lt x)]

/-- With the discarded carry nothing is lost: it is the quotient by 2^W of which the sum bus is the remainder. -/
theorem uval_add_uval (hw : 0 < w) (a b : BitVec w) :
    uval a + uval b = uval (rippleSum a b) + (discardedCarry a b).toNat * 2 ^ w := by
  have hcarry : (discardedCarry a b).toNat = (uval a + uval b) / 2 ^ w := by
    rw [discardedCarry, toNat_carryNet, uval_subBus_top hw, uval_subBus_top hw, Nat.sub_add_cancel hw]
  rw [hcarry, uval_rippleSum, Nat.mod_add_div']

/-- Settles O13: a carry net and the low sum bits are quotient and remainder of one division; the bits are those of the stages. -/
theorem carryNets : Obligations.CarryNets := by
  intro w a b i hi
  have hw : 0 < w := by omega
  refine ⟨toNat_carryNet a b i, uval_subBus_rippleSum a b hi, carryNet_iff a b i, uval_add_uval hw a b, fun h1 => ?_, ?_⟩
  · rw [getLsbD_rippleSum a b hi, stage_eq_fullAdd, if_neg (by omega)]; rfl
  · rw [getLsbD_rippleSum a b hw]; rfl

/-! ### Commutativity, identity and the missing carryIn (R50, R52) -/

theorem stage_comm (a b : BitVec w) (i : Nat) : stage a b i = stage b a i := by
  induction i with
  | zero => exact halfAdd_comm _ _
  | succ i ih => rw [stage, stage, ih, fullAdd_comm]

theorem rippleSum_comm (a b : BitVec w) : rippleSum a b = rippleSum b a := by
  simp only [rippleSum, stage_comm a b]

/-- A stage adds nothing to a bit with 0 beside it, and with no carry from below it carries none. -/
theorem stage_zero_right (a : BitVec w) (i : Nat) : stage a 0#w i = { sum := a.getLsbD i, carry := false } := by
  induction i with
  | zero => simp [stage, halfAdd]
  | succ i ih => simp [stage, ih, fullAdd, halfSum]

theorem rippleSum_zero (a : BitVec w) : rippleSum a 0#w = a := by
  rw [rippleSum_eq_add, BitVec.add_zero]

theorem enc_zero (w : Nat) : enc w 0 = 0#w := BitVec.ofInt_ofNat w 0

/-- Settles O14: stage by stage, the operands can be exchanged and a 0 operand leaves the other as it is. -/
theorem adderCommutesWithIdentity : Obligations.AdderCommutesWithIdentity := by
  refine ⟨fun w a b => ⟨rippleSum_comm a b, fun i => ?_, rippleSum_zero a, fun i => ?_⟩, fun w x y => ⟨?_, ?_⟩⟩
  · rw [carryNet, stage_comm]; rfl
  · rw [carryNet, stage_zero_right]
  · rw [addText, rippleSum_comm]; rfl
  · rw [addText, enc_zero, rippleSum_zero]; rfl

/-- A chain of full adders whose stage 0 has carryIn 0 is the chain of the adder. -/
theorem eq_stage_of_fullAdders {a b : BitVec w} {f : Nat → SumCarry} (h0 : f 0 = fullAdd (a.getLsbD 0) (b.getLsbD 0) false)
    (hf : ∀ i, f (i + 1) = fullAdd (a.getLsbD (i + 1)) (b.getLsbD (i + 1)) (f i).carry) (i : Nat) : f i = stage a b i := by
  induction i with
  | zero => rw [h0, fullAdd_false]; rfl
  | succ i ih => rw [hf, ih]; rfl

/-- Adding 1 takes an addition of its own (R52). -/
theorem uval_rippleSum_add_one (a b : BitVec w) :
    uval (rippleSum (rippleSum a b) (enc w 1)) = (uval a + uval b + 1) % 2 ^ w := by
  have hone : uval (enc w 1) = 1 % 2 ^ w := by exact_mod_cast uval_enc w 1
  rw [uval_rippleSum, uval_rippleSum, hone, ← Nat.add_mod]

/-- Settles O15: by induction such a chain has the stages of the adder; the second addition follows the unsigned law. -/
theorem noCarryIn : Obligations.NoCarryIn := by
  intro w a b f h0 hf
  refine ⟨fun i hi => ?_, uval_rippleSum_add_one a b⟩
  rw [getLsbD_rippleSum a b hi, eq_stage_of_fullAdders h0 hf]

end Sys2Proof.Machine
end

section
/-! Fault marks (R35, R53 to R55): bits raise nothing, a step marks at most the one fault of the evaluation that was pending, and so a run
only ever adds marks. -/

namespace Sys2Proof.Machine

/-- Settles O23: input wires that all carry bits are a legal vector, whose evaluation completes. -/
theorem bitsRaiseNothing : Obligations.BitsRaiseNothing :=
  fun i s h => ⟨_, exec_allBits ((allBits_iff i).2 h) s⟩

/-! ### One step (R54, R55) -/

section Step
variable {s t : State}

/-- From s to t the vector i, which is not of bits, was marked as faulted under the name n, and nothing was sampled (R35, R55). -/
def AddsMark (s t : State) (n : Name) (i : Instr) : Prop :=
  ¬ AllBits i ∧ t.faults = (n, .nonBinaryInput (nonBitWires i)) :: s.faults ∧ t.sampled = none

/-- A line that goes on marks no fault, or that of the vector its operands give. -/
theorem runLine_marks {l : Line} (h : s.runLine l = .next t) : t.faults = s.faults ∨
    l.call.check (shapes s.bench) = none ∧ ∃ i, decode l.call.component (l.call.vector s.look) = .ok i ∧ AddsMark s t l.name i := by
  rcases runLine_cases s l with ⟨r, hr⟩ | ⟨hc, i, hd, ⟨-, u, hu, hr⟩ | ⟨hnon, hr⟩⟩
  · rw [hr] at h; cases h
  · obtain ⟨-, rfl⟩ := exec_next hu
    rw [hr] at h
    cases h
    refine .inl ?_
    split <;> rfl
  · rw [hr] at h
    cases h
    exact .inr ⟨hc, i, hd, hnon, rfl, rfl⟩

/-- A sample that goes on marks no fault, or that of the vector on the newest component of the name. -/
theorem sample_marks {n : Name} (h : s.noteFault n (s.sampleIn n s.bench) = .next t) : t.faults = s.faults ∨
    ∃ newer x older, s.bench = newer ++ x :: older ∧ x.name = n ∧ (∀ y ∈ newer, y.name ≠ n) ∧
      AddsMark s t n (x.inputs (nodes s.draws older)) := by
  rcases sampleIn_cases s n s.bench with ⟨hr, -⟩ | ⟨newer, x, older, hb, hx, hn, hr⟩
  · rw [hr] at h; cases h
  · rw [hr] at h
    rcases sampleInstance_cases s x older with ⟨i, -, hi⟩ | hi | ⟨-, hnon, hi⟩
    all_goals
      rw [hi] at h
      cases h
    · exact .inl rfl
    · exact .inl rfl
    · exact .inr ⟨newer, x, older, hb, hx, hn, hnon, rfl, rfl⟩

/-- A step that goes on marks no fault, or that of the evaluation that was pending. -/
theorem step_marks (h : step s = .next t) : t.faults = s.faults ∨ ∃ n i, s.Evaluates n i ∧ AddsMark s t n i := by
  rcases step_cases h with ⟨-, rfl⟩ | ⟨act, rest, hact, hp⟩
  · exact .inl rfl
  cases act with
  | stimulus l =>
    rcases runLine_marks hp with hsame | ⟨hc, i, hd, hmark⟩
    · exact .inl hsame
    · exact .inr ⟨l.name, i, .inl ⟨l, rest, hact, rfl, hc, hd⟩, hmark⟩
  | drive n c v =>
    cases hd : decode c v with
    | error e => simp only [State.perform, hd] at hp; cases hp
    | ok i =>
      simp only [State.perform, hd] at hp
      cases hp
      exact .inl (State.drive_faults _ n i)
  | change n p x =>
    rcases change_cases { s with actions := rest } n p x with ⟨r, hr⟩ | ⟨_, _, _, call, -, -, -, -, -, -, hr⟩
    · exact absurd (hr.symm.trans hp) (by simp)
    · cases hr.symm.trans hp
      exact .inl rfl
  | hold d => cases hp; exact .inl rfl
  | sample n =>
    rcases sample_marks hp with hsame | ⟨newer, x, older, hb, hx, hn, hmark⟩
    · exact .inl hsame
    · exact .inr ⟨n, _, .inr ⟨rest, newer, x, older, hact, hb, hx, hn, rfl⟩, hmark⟩
  | powerUp n c => cases hp; exact .inl rfl

end Step

theorem runLine_ne_fault (s : State) (l : Line) (f : Fault) : s.runLine l ≠ .fault f := by
  rcases runLine_cases s l with ⟨r, hr⟩ | ⟨-, i, -, ⟨-, u, -, hr⟩ | ⟨-, hr⟩⟩ <;> simp [hr]

theorem change_ne_fault (s : State) (n : Name) (p : Port) (x : Operand) (f : Fault) : s.change n p x ≠ .fault f := by
  rcases change_cases s n p x with ⟨r, hr⟩ | ⟨_, _, _, call, -, -, -, -, -, -, hr⟩ <;> simp [hr]

/-- A fault is marked and is no outcome of a step: only lines and samples evaluate, and both note theirs. -/
theorem step_ne_fault (s : State) (f : Fault) : step s ≠ .fault f := by
  cases hact : s.actions with
  | nil => rw [idleStepChangesNothing s hact]; simp
  | cons act rest =>
    rw [step_cons hact]
    cases act with
    | stimulus l => exact runLine_ne_fault _ l f
    | drive n c v => simp only [State.perform]; split <;> simp
    | change n p x => exact change_ne_fault _ n p x f
    | hold d => simp [State.perform]
    | sample n => exact noteFault_ne_fault _ n _ f
    | powerUp n c => simp [State.perform]

/-- Settles O24: the mark that a step adds is that of the pending evaluation, whose vector is then not of bits. -/
theorem stepFaultsOnlyForNonBits : Obligations.StepFaultsOnlyForNonBits := by
  refine ⟨fun ⟨ws⟩ => ⟨ws, rfl⟩, fun i s h => ⟨_, exec_nonBits (not_allBits_iff.2 h) s⟩, fun s t h => ?_, step_ne_fault⟩
  refine (step_marks h).imp_right ?_
  rintro ⟨n, i, heval, hnon, hfaults, hsampled⟩
  exact ⟨n, i, nonBitWires i, heval, hnon, fun _ => mem_nonBitWires, hfaults, hsampled⟩

/-! ### Runs (R55) -/

/-- A run of one step more that goes on took a step that goes on. -/
theorem run_succ_eq_next {n : Nat} {s t : State} :
    core.run (n + 1) s = .next t ↔ ∃ u, step s = .next u ∧ core.run n u = .next t := by
  cases h : step s with
  | next u => simp [run_next h]
  | fault f => simp [run_fault h]
  | refused r => simp [run_refused h]

theorem step_appends_marks {s t : State} (h : step s = .next t) : ∃ more, t.faults = more ++ s.faults ∧ more.length ≤ 1 := by
  rcases step_marks h with hsame | ⟨n, i, -, -, hfaults, -⟩
  · exact ⟨[], hsame, Nat.zero_le 1⟩
  · exact ⟨[(n, .nonBinaryInput (nonBitWires i))], hfaults, Nat.le_refl 1⟩

theorem run_appends_marks (n : Nat) {s t : State} (h : core.run n s = .next t) :
    ∃ more, t.faults = more ++ s.faults ∧ more.length ≤ n := by
  induction n generalizing s with
  | zero => cases h; exact ⟨[], rfl, Nat.le_refl 0⟩
  | succ n ih =>
    obtain ⟨u, hstep, hrun⟩ := run_succ_eq_next.1 h
    obtain ⟨first, hfirst, hone⟩ := step_appends_marks hstep
    obtain ⟨later, hlater, hn⟩ := ih hrun
    refine ⟨later ++ first, by rw [hlater, hfirst, List.append_assoc], ?_⟩
    rw [List.length_append]
    exact Nat.add_le_add hn hone

/-- Settles O25: a step adds the one mark of the pending evaluation or none, and a run is as many steps. -/
theorem faultMarksAreNeverCleared : Obligations.FaultMarksAreNeverCleared :=
  ⟨fun _ _ => step_appends_marks, fun n _ _ => run_appends_marks n⟩

end Sys2Proof.Machine
end

section
/-! The invariant of the bench (R62, R63, R67): it holds after reset, and each action leaves the bench as it is, adds a component that is
wired to older ones, or rewires one. -/

namespace Sys2Proof.Machine

/-! ### Netlists (R23, R67) -/

section Wiring
variable {n : Name} {p : Port} {x : Operand} {c call : Call} {newer older : List Instance} {y z : Instance}

/-- A bench is a netlist where its newest component is wired to older ones through ports that fit, and the rest is one. -/
theorem wired_cons_iff : wired (y :: older) = true ↔
    (∀ call, y.source = .driven call → call.check (shapes older) = none) ∧ wired older = true := by
  rw [wired, Bool.and_eq_true]
  cases y.source <;> simp

/-- The components older than one of a netlist are a netlist, to which it is wired. -/
theorem wired_of_append (h : wired (newer ++ older) = true) : wired older = true := by
  induction newer with
  | nil => exact h
  | cons w newer ih => exact ih (wired_cons_iff.1 h).2

/-- Newer components are wired to a component by its name and kind alone. -/
theorem wired_replace (h : wired (newer ++ y :: older) = true) (hz : wired (z :: older) = true) (hname : z.name = y.name)
    (hcomp : z.component = y.component) : wired (newer ++ z :: older) = true := by
  induction newer with
  | nil => exact hz
  | cons w newer ih =>
    obtain ⟨hw, hrest⟩ := wired_cons_iff.1 h
    have hshapes : shapes (newer ++ z :: older) = shapes (newer ++ y :: older) := by
      simp only [shapes, List.map_append, List.map_cons, hname, hcomp]
    exact wired_cons_iff.2 ⟨fun call hcall => (congrArg call.check hshapes).trans (hw call hcall), ih hrest⟩

/-- Rewiring a component to a call of its kind that fits keeps the netlist. -/
theorem wired_redrive (t : Nat) (h : wired (newer ++ y :: older) = true) (hy : y.name = n) (hn : ∀ z ∈ newer, z.name ≠ n)
    (hc : call.component = y.component) (hcheck : call.check (shapes older) = none) :
    wired (redrive n (.driven call) t (newer ++ y :: older)) = true := by
  rw [redrive_newest _ t hy hn]
  split
  · exact h
  · refine wired_replace h (wired_cons_iff.2 ⟨?_, ?_⟩) rfl hc
    · rintro _ ⟨⟩
      exact hcheck
    · exact (wired_cons_iff.1 (wired_of_append h)).2

theorem undrivenInputs_wellFormed (c : Component) : (undrivenInputs c).wellFormed = true := by cases c <;> decide

/-- The call that reads the ports of a component of a netlist fits the components older than it. -/
theorem check_source_call (h : wired (y :: older) = true) : y.source.call.check (shapes older) = none := by
  have hdriven := (wired_cons_iff.1 h).1
  cases hsrc : y.source with
  | powerUp c => exact ofInstr_check (undrivenInputs_wellFormed c) _
  | driven call => exact hdriven call hsrc

/-- A port of a call with another operand on p is a port of the call, or it is p with that operand. -/
theorem mem_ports_setPort {q : Port × Nat × Operand} (hp : c.setPort p x = some call) (hq : q ∈ call.ports) :
    q ∈ c.ports ∨ q = (p, portWidth c.component, x) := by
  cases c with
  | ha a b | add32 a b =>
    cases p with
    | a | b => cases hp; grind [Call.ports, Call.component, portWidth]
    | carryIn => cases hp
  | fa a b k =>
    cases p with
    | a | b | carryIn => cases hp; grind [Call.ports, Call.component, portWidth]

/-- A call that fits still does with another operand that fits on one of its ports. -/
theorem check_setPort {sh : List (Name × Component)} (h : c.check sh = none) (hp : c.setPort p x = some call)
    (hx : x.checkPort sh p (portWidth c.component) = none) : call.check sh = none := by
  refine List.findSome?_eq_none_iff.2 fun q hq => ?_
  rcases mem_ports_setPort hp hq with hold | rfl
  · exact List.findSome?_eq_none_iff.1 h q hold
  · exact hx

end Wiring

/-! ### What a rewiring leaves of each component (R63, R66) -/

section Memory
variable {s : State} {k t : Nat} {n : Name} {src : Source} {bench newer older : List Instance} {x y : Instance}

theorem settledBy_iff {d : Node} :
    d.settledBy t = true ↔ d.steady = true ∧ (∃ o, d.result = .outputs o) ∧ d.readyAt ≤ t := by
  have houtputs : d.result.isOutputs = true ↔ ∃ o, d.result = .outputs o := by
    cases d.result <;> simp [EvalResult.isOutputs]
  simp only [Node.settledBy, Node.settles, Bool.and_eq_true, decide_eq_true_eq, houtputs, and_assoc]

/-- A component some input of which is no bit has not settled. -/
theorem not_settledBy_of_nonBits {ns : List (Name × Node)} (h : ¬ AllBits (x.inputs ns)) : (x.node k ns).settledBy t = false := by
  rw [← Bool.not_eq_true, settledBy_iff]
  rintro ⟨-, ⟨o, ho⟩, -⟩
  exact h (ruleResult_outputs ho).1

/-- Something is no bit on the inputs of a component that nothing drives (R63). -/
theorem inputs_nonBits_of_powerUp {c : Component} (h : x.source = .powerUp c) (ns : List (Name × Node)) :
    ¬ AllBits (x.inputs ns) := by
  simp only [Instance.inputs, h]
  exact undrivenInputs_nonBits c

/-- Remembering leaves what drives each component and since when, and does not note one that nothing drives. -/
theorem of_mem_remember (h : y ∈ remember k t bench) : ∃ x ∈ bench, y.source = x.source ∧ y.changedAt = x.changedAt ∧
    ∀ c, x.source = .powerUp c → y.settledOnce = x.settledOnce := by
  induction bench with
  | nil => cases h
  | cons x rest ih =>
    rcases List.mem_cons.1 h with rfl | h
    · refine ⟨x, List.mem_cons_self, rfl, rfl, fun c hc => ?_⟩
      show (x.settledOnce || (x.node k (nodes k rest)).settledBy t) = x.settledOnce
      rw [not_settledBy_of_nonBits (inputs_nonBits_of_powerUp hc _), Bool.or_false]
    · obtain ⟨z, hz, hkeeps⟩ := ih h
      exact ⟨z, List.mem_cons_of_mem x hz, hkeeps⟩

/-- Remembering leaves the newest component of a name where it stands. -/
theorem remember_newest (k t : Nat) (older : List Instance) (y : Instance) (hn : ∀ z ∈ newer, z.name ≠ n) :
    ∃ newer' once, remember k t (newer ++ y :: older) = newer' ++ { y with settledOnce := once } :: remember k t older ∧
      ∀ z ∈ newer', z.name ≠ n := by
  obtain ⟨newer', hrem, hnames⟩ := remember_append k t newer older y
  have hmem : ∀ m ∈ newer'.map Instance.name, m ≠ n := by simpa [hnames] using hn
  exact ⟨newer', _, hrem, by simpa using hmem⟩

/-- Driving a name changes one component, from now on, and no other. -/
theorem of_mem_redrive (h : y ∈ redrive n src t bench) : y ∈ bench ∨ y.source = src ∧ y.changedAt = t := by
  induction bench with
  | nil => cases h
  | cons x rest ih =>
    unfold redrive at h
    split at h
    · rcases List.mem_cons.1 h with rfl | h
      · split
        · exact .inl List.mem_cons_self
        · exact .inr ⟨rfl, rfl⟩
      · exact .inl (List.mem_cons_of_mem x h)
    · rcases List.mem_cons.1 h with rfl | h
      · exact .inl List.mem_cons_self
      · exact (ih h).imp_left (List.mem_cons_of_mem x)

/-- Driving a name leaves each component its place, its name and its memory of having settled. -/
theorem redrive_names_settledOnce (n : Name) (src : Source) (t : Nat) (bench : List Instance) :
    (redrive n src t bench).map (fun y => (y.name, y.settledOnce)) = bench.map fun y => (y.name, y.settledOnce) := by
  induction bench with
  | nil => rfl
  | cons x rest ih =>
    unfold redrive
    split
    · split <;> rfl
    · simp only [List.map_cons, ih]

end Memory

/-! ### What keeps the invariant (R63, R67) -/

section Invariant
variable {s t : State} {n : Name} {x : Instance}

/-- What the invariant says of the bench is left by a step that leaves the bench and goes no time back. -/
theorem State.Inv.of_bench (h : s.Inv) (hb : t.bench = s.bench) (hnow : s.now ≤ t.now)
    (hwidth : ∀ o, t.sampled = some o → o.wellFormed = true) : t.Inv where
  wiring := hb ▸ h.wiring
  past := fun x hx => (h.past x (hb ▸ hx)).trans hnow
  undriven := hb ▸ h.undriven
  width := hwidth

/-- The invariant is kept where a component is added that is wired to those there, changes now and has not settled. -/
theorem State.Inv.of_cons (h : s.Inv) (hb : t.bench = x :: s.bench) (hnow : s.now ≤ t.now)
    (hwired : ∀ call, x.source = .driven call → call.check (shapes s.bench) = none) (hx : x.changedAt = t.now)
    (hsettled : x.settledOnce = false) (hwidth : ∀ o, t.sampled = some o → o.wellFormed = true) : t.Inv where
  wiring := by rw [hb]; exact wired_cons_iff.2 ⟨hwired, h.wiring⟩
  past := by
    rw [hb, List.forall_mem_cons]
    exact ⟨hx.le, fun y hy => (h.past y hy).trans hnow⟩
  undriven := by
    rw [hb, List.forall_mem_cons]
    exact ⟨fun _ _ => hsettled, h.undriven⟩
  width := hwidth

/-- The invariant is kept where the newest component of a name is rewired to a call of its kind that fits. -/
theorem State.Inv.rewire {newer older : List Instance} {y : Instance} {call : Call} (h : s.Inv)
    (hb : s.bench = newer ++ y :: older) (hy : y.name = n) (hn : ∀ z ∈ newer, z.name ≠ n)
    (hc : call.component = y.component) (hcheck : call.check (shapes older) = none) : (s.rewire n call).Inv where
  wiring := by
    obtain ⟨newer', once, hrem, hn'⟩ := remember_newest s.draws s.now older y hn
    have hwired : wired (remember s.draws s.now s.bench) = true := (remember_wired _ _ _).trans h.wiring
    rw [hb, hrem] at hwired
    rw [State.rewire_bench, hb, hrem]
    exact wired_redrive s.now hwired hy hn' hc (by rwa [remember_shapes])
  past := fun z hz => by
    rcases of_mem_redrive hz with hz | ⟨-, hnow⟩
    · obtain ⟨w, hw, -, hchanged, -⟩ := of_mem_remember hz
      exact hchanged.trans_le (h.past w hw)
    · exact hnow.le
  undriven := fun z hz c hsrc => by
    rcases of_mem_redrive hz with hz | ⟨hcall, -⟩
    · obtain ⟨w, hw, hsrc', -, honce⟩ := of_mem_remember hz
      rw [hsrc'] at hsrc
      exact (honce c hsrc).trans (h.undriven w hw c hsrc)
    · rw [hcall] at hsrc
      cases hsrc
  width := h.width

theorem State.Inv.drive {c : Component} {v : List Level} {i : Instr} (h : s.Inv) (n : Name) (hd : decode c v = .ok i) :
    (s.drive n i).Inv := by
  have hcheck := ofInstr_check (decode_ok hd).1
  by_cases hl : lookupName n (shapes s.bench) = some i.component
  · obtain ⟨newer, y, older, hb, hy, hc, hn⟩ := lookupName_split Instance.component n s.bench hl
    rw [drive_eq_rewire hl]
    exact h.rewire hb hy hn ((ofInstr_component i).trans hc.symm) (hcheck _)
  · refine h.of_cons (drive_bench_of_other hl) (State.drive_now s n i).ge ?_ (State.drive_now s n i).symm rfl ?_
    · rintro _ ⟨⟩
      exact hcheck _
    · rw [State.drive_sampled]
      exact h.width

theorem State.Inv.change {p : Port} {x : Operand} (h : s.Inv) (ht : s.change n p x = .next t) : t.Inv := by
  rcases change_cases s n p x with ⟨r, hr⟩ | ⟨newer, y, older, call, hb, hy, hn, hp, -, hx, hr⟩
  · rw [hr] at ht; cases ht
  · rw [hr] at ht
    cases ht
    have hwired : wired (y :: older) = true := wired_of_append (hb ▸ h.wiring)
    rw [← source_call_component] at hx
    exact h.rewire hb hy hn ((setPort_component hp).trans (source_call_component y)) (check_setPort (check_source_call hwired) hp hx)

/-- What a line that goes on does after its component was placed: time passes, and what is sampled is as wide as its port. -/
theorem runLine_after_place {l : Line} (ht : s.runLine l = .next t) :
    (s.place l).now ≤ t.now ∧ ∀ o, t.sampled = some o → o.wellFormed = true := by
  rcases runLine_cases s l with ⟨r, hr⟩ | ⟨-, i, -, ⟨-, u, hu, hr⟩ | ⟨-, hr⟩⟩
  · rw [hr] at ht; cases ht
  · obtain ⟨-, rfl⟩ := exec_next hu
    rw [hr] at ht
    cases ht
    split
    · exact ⟨Nat.le_add_right _ _, fun _ ho => Option.some.inj ho ▸ settledOf_wellFormed i⟩
    · exact ⟨Nat.le_add_right _ _, fun _ ho => Option.some.inj ho ▸ drawnOutputs_wellFormed _ _⟩
  · rw [hr] at ht
    cases ht
    exact ⟨Nat.le_refl _, fun _ ho => nomatch ho⟩

/-- A sample that goes on gives outputs as wide as their port, or nothing. -/
theorem sample_wellFormed (ht : s.noteFault n (s.sampleIn n s.bench) = .next t) :
    ∀ o, t.sampled = some o → o.wellFormed = true := by
  rcases sampleIn_cases s n s.bench with ⟨hr, -⟩ | ⟨_, x, older, -, -, -, hr⟩
  · rw [hr] at ht; cases ht
  · rw [hr] at ht
    rcases sampleInstance_cases s x older with ⟨i, -, hi⟩ | hi | ⟨-, -, hi⟩
    all_goals
      rw [hi] at ht
      cases ht
    · exact fun _ ho => Option.some.inj ho ▸ settledOf_wellFormed i
    · exact fun _ ho => Option.some.inj ho ▸ drawnOutputs_wellFormed _ _
    · exact fun _ ho => nomatch ho

theorem State.Inv.runLine {l : Line} (h : s.Inv) (ht : s.runLine l = .next t) : t.Inv := by
  obtain ⟨hnow, hwidth⟩ := runLine_after_place ht
  have hplaced : (s.place l).Inv := by
    refine h.of_cons (State.place_bench s l) (Nat.le_max_left _ _) ?_ rfl rfl h.width
    rintro _ ⟨⟩
    rcases runLine_cases s l with ⟨r, hr⟩ | ⟨hcheck, -⟩
    · rw [hr] at ht; cases ht
    · exact hcheck
  exact hplaced.of_bench (runLine_frame ht).1 hnow hwidth

theorem State.Inv.perform {act : Action} (h : s.Inv) (ht : s.perform act = .next t) : t.Inv := by
  cases act with
  | stimulus l => exact h.runLine ht
  | drive n c v =>
    cases hd : decode c v with
    | error e => simp only [State.perform, hd] at ht; cases ht
    | ok i =>
      simp only [State.perform, hd] at ht
      cases ht
      exact h.drive n hd
  | change n p x => exact h.change ht
  | hold d =>
    cases ht
    exact h.of_bench rfl (Nat.le_add_right _ _) h.width
  | sample n =>
    obtain ⟨-, hbench, hnow⟩ := sample_frame ht
    exact h.of_bench hbench hnow.ge (sample_wellFormed ht)
  | powerUp n c =>
    cases ht
    exact h.of_cons (State.powerUp_bench s n c) (Nat.le_refl _) (fun _ hsrc => nomatch hsrc) rfl rfl h.width

end Invariant

/-- Settles O43: each action leaves the bench, adds a component that fits or rewires one, and samples what is as wide as its port. -/
theorem stepKeepsTheNetlist : Obligations.StepKeepsTheNetlist := by
  intro s t h hstep
  rcases step_cases hstep with ⟨-, rfl⟩ | ⟨act, rest, -, hperform⟩
  · exact h
  · exact State.Inv.perform (s := { s with actions := rest }) (h.of_bench rfl (Nat.le_refl _) h.width) hperform

/-- Nothing is wired, and nothing was sampled, before the host's first action. -/
theorem reset_inv : State.reset.Inv where
  wiring := rfl
  past := List.forall_mem_nil _
  undriven := List.forall_mem_nil _
  width := fun _ ho => nomatch ho

/-- Settles O44: an empty bench is a netlist. -/
theorem resetMeetsTheNetlist : Obligations.ResetMeetsTheNetlist := ⟨reset_inv, rfl, rfl, rfl, rfl⟩

end Sys2Proof.Machine
end

section
/-! Settling and draws (R63 to R66): what a component remembers of having settled, and what its samples, its wires and the lines wired
to it are before it has settled and after. -/

namespace Sys2Proof.Machine

/-- Settles O37: each of the two actions is one update of the state. -/
theorem holdAndPowerUp : Obligations.HoldAndPowerUp :=
  fun _ _ => ⟨fun _ h => step_cons h, fun _ _ h => step_cons h⟩

/-! ### The memory of having settled (R63) -/

section Settled
variable {s t : State} {n : Name} {newer older : List Instance} {x : Instance}

@[simp] theorem rewire_length (s : State) (n : Name) (call : Call) : (s.rewire n call).bench.length = s.bench.length := by
  simpa using congrArg List.length (redrive_names_settledOnce n (.driven call) s.now (remember s.draws s.now s.bench))

/-- After a rewiring a component stands where it stood, and remembers whether it had settled by then. -/
theorem rewire_getElem? (call : Call) (hb : s.bench = newer ++ x :: older) :
    ∃ y, (s.rewire n call).bench[newer.length]? = some y ∧ y.name = x.name ∧
      y.settledOnce = (x.settledOnce || (x.node s.draws (nodes s.draws older)).settledBy s.now) := by
  obtain ⟨newer', hrem, hnames⟩ := remember_append s.draws s.now newer older x
  have hlen : newer.length = newer'.length := by simpa using congrArg List.length hnames.symm
  have hat : ((s.rewire n call).bench.map fun y => (y.name, y.settledOnce))[newer.length]? =
      some (x.name, x.settledOnce || (x.node s.draws (nodes s.draws older)).settledBy s.now) := by
    rw [State.rewire_bench, redrive_names_settledOnce, hb, hrem, hlen]
    simp
  rw [List.getElem?_map, Option.map_eq_some_iff] at hat
  obtain ⟨y, hy, heq⟩ := hat
  obtain ⟨hname, honce⟩ := Prod.mk.inj heq
  exact ⟨y, hy, hname, honce⟩

/-- A drive of a component that is there, and a change of one, rewire it. -/
theorem perform_rewires {act : Action} (h : s.perform act = .next t)
    (hact : (∃ c v, act = .drive n c v ∧ lookupName n (shapes s.bench) = some c) ∨ ∃ p x, act = .change n p x) :
    ∃ call, t = s.rewire n call := by
  rcases hact with ⟨c, v, rfl, hl⟩ | ⟨p, x, rfl⟩
  · cases hd : decode c v with
    | error e => simp only [State.perform, hd] at h; cases h
    | ok i =>
      simp only [State.perform, hd] at h
      cases h
      exact ⟨_, drive_eq_rewire (decode_component hd ▸ hl)⟩
  · rcases change_cases s n p x with ⟨r, hr⟩ | ⟨_, _, _, call, -, -, -, -, -, -, hr⟩
    · exact absurd (hr.symm.trans h) (by simp)
    · cases hr.symm.trans h
      exact ⟨call, rfl⟩

end Settled

/-- Settles O51: both actions rewire the component, and a rewiring first notes what has settled. -/
theorem settlingIsRemembered : Obligations.SettlingIsRemembered := by
  intro s n rest act h
  refine ⟨?_, fun t ht hact => ?_⟩
  · rintro ⟨c, v, rfl, hw, -⟩
    obtain ⟨i, hd⟩ := decode_of_length hw
    exact ⟨_, step_drive h hd⟩
  · rw [step_cons h] at ht
    obtain ⟨call, rfl⟩ := perform_rewires (s := { s with actions := rest }) ht hact
    refine ⟨rewire_length _ n call, ?_⟩
    rintro newer x older d hb rfl
    obtain ⟨y, hy, hname, honce⟩ := rewire_getElem? (s := { s with actions := rest }) (n := n) call hb
    exact ⟨y, hy, hname, by rw [honce, Bool.or_eq_true, settledBy_iff]⟩

/-! ### Changes of what drives a component (R65, R66) -/

/-- What a driven component shows where the levels did not drive it already: their rule's result, a settle time after now. -/
theorem look_drive_changed {s : State} {n : Name} {c : Component} {v : List Level} {i : Instr} (hd : decode c v = .ok i)
    (hsrc : lookupName n (s.bench.map fun x => (x.name, x.source)) ≠ some (.driven (Call.ofInstr i))) :
    ∃ k ns, lookupName n (s.drive n i).look = some (drivenView k (Call.ofInstr i) i s.now ns) := by
  by_cases hl : lookupName n (shapes s.bench) = some i.component
  · obtain ⟨newer, y, older, hb, hy, -, hn⟩ := lookupName_split Instance.component n s.bench hl
    rw [hb, lookupName_newest Instance.source hy hn, ne_eq, Option.some.injEq] at hsrc
    rw [drive_eq_rewire hl, look_rewire s hb hy hn (decode_ofInstr hd _), if_neg hsrc]
    exact ⟨_, _, rfl⟩
  · rw [State.look, drive_bench_of_other hl]
    exact ⟨_, _, nodes_newest_driven (newer := []) (y := ⟨n, _, s.now, false⟩) _ rfl (by simp) rfl (decode_ofInstr hd _)⟩

/-- Settles O41: host levels are steady and wait for nothing, so the settle time counts from the change. -/
theorem inputChangeRestartsSettling : Obligations.InputChangeRestartsSettling := by
  intro s n c v rest i h hd hsrc
  obtain ⟨k, ns, hlook⟩ := look_drive_changed (s := { s with actions := rest }) hd hsrc
  refine ⟨_, _, step_drive h hd, hlook, ofInstr_steady i ns, ?_, rfl⟩
  rw [drivenView, ofInstr_readyAt, ofInstr_component, decode_component hd, Nat.max_zero]

/-! ### Samples (R35, R63, R65) -/

section Samples
variable {s : State} {k : Nat} {n : Name} {rest : List Action} {newer older : List Instance} {x : Instance}

/-- A sample before the inputs have been steady for the settle time is drawn (R65). -/
theorem sampleInstance_early
    (h : ¬ ((x.node (s.draws + drawsFor older.length) (nodes s.draws older)).steady = true ∧
      (x.node (s.draws + drawsFor older.length) (nodes s.draws older)).readyAt ≤ s.now)) :
    s.sampleInstance x older = .next (s.sampleDrawn older.length x.component) := if_neg h

/-- A step that samples a name whose newest component gives draws. -/
theorem step_sample_drawn (h : s.actions = .sample n :: rest) (hb : s.bench = newer ++ x :: older) (hx : x.name = n)
    (hn : ∀ y ∈ newer, y.name ≠ n)
    (hdrawn : State.sampleInstance { s with actions := rest } x older =
      .next (State.sampleDrawn { s with actions := rest } older.length x.component)) :
    step s = .next
      { s with
        actions := rest
        sampled := some (drawnOutputs (s.draws + drawsFor older.length) x.component)
        draws := s.draws + drawsFor s.bench.length } := by
  rw [step_sample h hb hx hn, hdrawn]
  rfl

/-- The output wires of a component some input of which is no bit carry draws, and it settles to nothing (R63; log 17). -/
theorem node_of_nonBits {ns : List (Name × Node)} (h : ¬ AllBits (x.inputs ns)) :
    (x.node k ns).outputs = drawnOutputs k x.component ∧ (x.node k ns).settled = none := by
  simp [Instance.node, ruleResult_of_not_allBits h, wireLevels, Node.settled, Node.settles, EvalResult.isOutputs]

end Samples

/-- Settles O39: the sample asks whether the component is ready, then for its rule's result, then whether it has settled once. -/
theorem sampleBeforeAndAfterSettling : Obligations.SampleBeforeAndAfterSettling := by
  intro s n rest newer older x d h hb hx hn hd
  have hnode : x.node (s.draws + drawsFor older.length) (nodes s.draws older) = d := by
    rw [State.look, hb, nodes_newest _ hx hn] at hd
    exact Option.some.inj hd
  refine ⟨fun o hs hr ho => step_sample_ready h hd hs hr ho, fun ws hs hr hws honce => ?_, fun hunsettled => ?_⟩
  · rw [step_sample h hb hx hn]
    simp only [State.sampleInstance, hnode, if_pos (And.intro hs hr), hws, honce]
    rfl
  · refine step_sample_drawn h hb hx hn ?_
    rcases hunsettled with hs | hr | ⟨⟨ws, hws⟩, honce⟩
    · exact sampleInstance_early (by simp [hnode, hs])
    · exact sampleInstance_early (by simp [hnode, hr])
    · have hrule : ruleResult (x.inputs (nodes s.draws older)) = .nonBits ws := (congrArg Node.result hnode).trans hws
      exact sampleInstance_drawn honce (ruleResult_nonBits hrule).1

/-- Settles O40: a component that nothing drives has an input that is no bit, and one with such an input is drawn. -/
theorem powerUpSampleIsDrawn : Obligations.PowerUpSampleIsDrawn := by
  rintro s n newer older x drawn hb hx hn honce hinput rfl
  have hnon : ¬ AllBits (x.inputs (nodes s.draws older)) :=
    hinput.elim (fun ⟨c, hsrc⟩ => inputs_nonBits_of_powerUp hsrc _) id
  have hlook : lookupName n s.look = some (x.node (s.draws + drawsFor older.length) (nodes s.draws older)) := by
    rw [State.look, hb, nodes_newest _ hx hn]
  obtain ⟨houtputs, hsettled⟩ := node_of_nonBits (k := s.draws + drawsFor older.length) hnon
  refine ⟨fun rest h => step_sample_drawn h hb hx hn (sampleInstance_drawn honce hnon), ?_, ?_, ?_⟩
  · simp only [Operand.levels, hlook, Option.map_some, Option.getD_some, houtputs]
  · simp only [Operand.levels, hlook, Option.map_some, Option.getD_some, houtputs]
  · rw [State.output, hlook, Option.bind_some, hsettled]

/-! ### Lines wired to what does not settle (R63, R65) -/

/-- A component placed for a line that refers to something unsettled settles to nothing. -/
theorem output_placed_unsteady {s t : State} {l : Line} (hb : t.bench = (s.place l).bench)
    (hs : l.call.steady s.look = false) : t.output l.name = none := by
  rw [t.output_eq s.draws, hb, State.place_bench, nodes_cons, lookupName_self, Option.bind_some]
  have hsettles : (Instance.node (s.draws + drawsFor s.bench.length) (nodes s.draws s.bench)
      ⟨l.name, .driven l.call, (s.place l).now, false⟩).settles = false := by
    rw [Node.settles, Bool.and_eq_false_iff]
    exact .inl hs
  rw [Node.settled, hsettles]
  rfl

/-- Settles O53: the levels drawn decide between a drawn sample and a marked fault, and the component is placed either way. -/
theorem lineOnUnsettledWires : Obligations.LineOnUnsettledWires := by
  intro s l rest i h hc hs hd
  have hstep := step_line h hc hd
  have hout : ∀ t : State, t.bench = (s.place l).bench → t.output l.name = none := fun _ hb => output_placed_unsteady hb hs
  rw [hs] at hstep
  by_cases hb : AllBits i
  · rw [exec_allBits hb] at hstep
    exact ⟨_, hstep, rfl, hout _ rfl, fun _ => ⟨rfl, rfl⟩, fun hnon => absurd hb hnon⟩
  · rw [exec_nonBits hb] at hstep
    exact ⟨_, hstep, rfl, hout _ rfl, fun hbits => absurd hbits hb, fun _ => ⟨rfl, rfl⟩⟩

end Sys2Proof.Machine
end

section
/-! The reach of an operand bit along the carry chain (R68). -/

namespace Sys2Proof.Machine

variable {w : Nat}

/-- A stage depends on the operands' bits at and below it alone. -/
theorem stage_congr {a b a' b' : BitVec w} {i : Nat}
    (h : ∀ j, j ≤ i → a.getLsbD j = a'.getLsbD j ∧ b.getLsbD j = b'.getLsbD j) : stage a b i = stage a' b' i := by
  induction i with
  | zero =>
    obtain ⟨ha, hb⟩ := h 0 (Nat.le_refl 0)
    rw [stage, stage, ha, hb]
  | succ i ih =>
    obtain ⟨ha, hb⟩ := h (i + 1) (Nat.le_refl _)
    rw [stage, stage, ha, hb, ih fun j hj => h j (Nat.le_succ_of_le hj)]

/-- The bits from j up to, and not including, bit i, all 1: a carry into bit j goes along them into bit i. -/
def carryPath (w j i : Nat) : BitVec w := BitVec.ofNat w (2 ^ i - 2 ^ j)

theorem getLsbD_carryPath_top (w j i : Nat) : (carryPath w j i).getLsbD i = false := by
  have hlt : 2 ^ i - 2 ^ j < 2 ^ i := Nat.sub_lt (Nat.two_pow_pos i) (Nat.two_pow_pos j)
  rw [carryPath, BitVec.getLsbD_ofNat, Nat.testBit_lt_two_pow hlt, Bool.and_false]

/-- Bit j of the one operand goes along the path into bit i. -/
theorem twoPow_add_carryPath {j i : Nat} (h : j ≤ i) : BitVec.twoPow w j + carryPath w j i = BitVec.twoPow w i := by
  have hpow : 2 ^ j + (2 ^ i - 2 ^ j) = 2 ^ i := Nat.add_sub_cancel' (Nat.pow_le_pow_right two_pos h)
  apply BitVec.eq_of_toNat_eq
  rw [BitVec.toNat_add, BitVec.toNat_twoPow, carryPath, BitVec.toNat_ofNat, ← Nat.add_mod, hpow, BitVec.toNat_twoPow]

/-- Settles O16: stage i reads no bit above it, and bit j beside a path of carries up to bit i sets that bit. -/
theorem sumBitDependsOnBitsBelow : Obligations.SumBitDependsOnBitsBelow := by
  intro w i hi
  refine ⟨fun a b a' b' h => ?_, fun j hj => ?_, Nat.le_add_right _ _⟩
  · rw [getLsbD_rippleSum a b hi, getLsbD_rippleSum a' b' hi, stage_congr h]
  · have hclear : (rippleSum (carryPath w j i) 0#w).getLsbD i = false := by
      rw [rippleSum_zero, getLsbD_carryPath_top]
    have hset : (rippleSum (carryPath w j i) (BitVec.twoPow w j)).getLsbD i = true := by
      rw [rippleSum_comm, rippleSum_eq_add, twoPow_add_carryPath hj, BitVec.getLsbD_twoPow]
      simp [hi]
    have hdiffer : (rippleSum (carryPath w j i) 0#w).getLsbD i ≠ (rippleSum (carryPath w j i) (BitVec.twoPow w j)).getLsbD i := by
      rw [hclear, hset]
      exact Bool.false_ne_true
    refine ⟨0#w, BitVec.twoPow w j, carryPath w j i, fun k hk => ?_, ?_, hdiffer⟩
    · simp [BitVec.getLsbD_twoPow, hk.symm]
    · rwa [rippleSum_comm, rippleSum_comm (BitVec.twoPow w j)]

end Sys2Proof.Machine
end

section
/-! Numbers that write out the input vector of an operation (R7, R30 to R34). -/

namespace Sys2Proof.Machine

/-- A number as wide as the inputs of a component is read for that component (log 10). -/
theorem decodeTableWord_inputWidth (c : Component) (n : Nat) :
    decodeTableWord (inputWidth c) n = decodeBits c (inputWidth c) n := by
  cases c <;> rfl

/-- A number whose bits are the input vector of an operation decodes to that operation. -/
theorem decodeTableWord_of_encode {i : Instr} {n : Nat} (hwf : i.wellFormed = true)
    (hn : n < 2 ^ inputWidth i.component) (h : encode i = vectorOfNat (inputWidth i.component) n) :
    decodeTableWord (inputWidth i.component) n = some i := by
  rw [decodeTableWord_inputWidth]
  exact decodeBits_of_lt hn (h ▸ decode_encode hwf)

/-- The wires of `a ++ b` are those of b, the low ones, and then those of a. -/
theorem busOf_append {m n : Nat} (a : BitVec m) (b : BitVec n) : busOf (a ++ b) = busOf b ++ busOf a := by
  apply List.ext_getElem
  · simp [Nat.add_comm]
  · intro j hj _
    rw [List.getElem_append]
    simp only [busOf, List.getElem_map, List.getElem_range, List.length_map, List.length_range, BitVec.getLsbD_append]
    by_cases hlow : j < n <;> simp [hlow]

/-- The number with a in bits 63:32 and b in bits 31:0 decodes to the addition of a and b (R34). -/
theorem decodeTableWord_append (a b : Word) :
    decodeTableWord 64 (a ++ b).toNat = some (.add32 (busOf a) (busOf b)) := by
  have hwf : (Instr.add32 (busOf a) (busOf b)).wellFormed = true := wellFormed_add32.2 ⟨length_busOf a, length_busOf b⟩
  exact decodeTableWord_of_encode hwf (a ++ b).isLt (busOf_append a b).symm

/-- Settles O21: each number is within its width and its bits are the encoding of the operation, for ADD32 a above b. -/
theorem writtenVectorsDecode : Obligations.WrittenVectorsDecode := by
  refine ⟨?ha10, ?ha01, ?fa101, ?fa110, ?add53, ?addFC⟩
  case ha10 => exact decodeTableWord_of_encode (i := .ha .one .zero) rfl (by decide) rfl
  case ha01 => exact decodeTableWord_of_encode (i := .ha .zero .one) rfl (by decide) rfl
  case fa101 => exact decodeTableWord_of_encode (i := .fa .one .zero .one) rfl (by decide) rfl
  case fa110 => exact decodeTableWord_of_encode (i := .fa .one .one .zero) rfl (by decide) rfl
  case add53 => exact decodeTableWord_append 0x00000005#32 0x00000003#32
  case addFC => exact decodeTableWord_append 0xFFFFFFFC#32 0x00000001#32

end Sys2Proof.Machine
end
